-- ==== Sys2Proof/Word.lean ====
section
/-! DEFINITION. The word types of PHF/ERE and the name of its two messages (spec/00_scope.md R4 to R6,
spec/20_memory.md R40). -/

namespace Sys2Proof

/-- A byte (R6). -/
abbrev Byte := BitVec 8

/-- A 16-bit value: ACC, a seed, SEQ, a length, a cursor, a range operand (R4). -/
abbrev Half := BitVec 16

/-- A 128-bit IPv6 address register; the first wire byte sits in bits 127:120 (R4, R6). -/
abbrev Addr := BitVec 128

/-- A command word (R60). -/
abbrev CmdWord := BitVec 64

/-- Which of the block's two messages: the inbound one (space IN, registers I_*) or the outbound one
(space OUT, registers O_*). It is the operand `buf` of FOLD and TXSUM (R64), the operand `info` of SEED
(R63) and the space of a host buffer access (R179). -/
inductive Side where
  | inbound
  | outbound
  deriving DecidableEq, Repr

end Sys2Proof
end

