-- ==== Sys2Proof/Config.lean ====
section
/-! DEFINITION. The parameters of an instance, the protocol constants, and the free values
(spec/00_scope.md R4, spec/30_encoding.md R70 to R72, spec/93_implementation_defined.md U1, U12). -/

namespace Sys2Proof

/-- The four OPEN parameters of R4. They are fixed for an instance; State carries them in one field that
no step changes, so that a statement about every state is a statement about every value of them
(assumption 2). A capacity is at most 65535 by its width; its lower bound is `Params.wf`. -/
structure Params where
  /-- IN_CAP, capacity of the inbound buffer in bytes. -/
  inCap : BitVec 16
  /-- OUT_CAP, capacity of the outbound buffer in bytes. -/
  outCap : BitVec 16
  /-- SEQ_RESET, reset value of SEQ. -/
  seqReset : BitVec 16
  /-- ECHO_EN_RESET, reset value of ECHO_EN. -/
  echoEnReset : Bool
  deriving DecidableEq, Repr

namespace Config

/-- The echo identifier, the value of the hard-wired register IDENT (R4, R22). -/
def ident : BitVec 16 := 0x0001#16

/-- NH_ICMPV6, the next-header number of ICMPv6 (R4; D10, G1). -/
def nhIcmpv6 : BitVec 8 := 58#8

/-- BASE_HDR, bytes of the header without type-specific data (R4, R72). -/
def baseHdr : Nat := 4

/-- ECHO_HDR, bytes of an echo header, equal to the echo data offset (R4, R72). -/
def echoHdr : Nat := 8

/-- Type byte of an echo request (R71). -/
def typeEchoRequest : BitVec 8 := 0x80#8

/-- Type byte of an echo reply (R71). -/
def typeEchoReply : BitVec 8 := 0x81#8

/-- Type byte of a destination-unreachable message (R71). -/
def typeUnreachable : BitVec 8 := 0x01#8

/-- Free: IN_CAP less its least value 1 (R4, OPEN; assumption 2). -/
opaque inCapLessOne : Fin 65535

/-- Free: OUT_CAP less its least value 8 (R4, OPEN; assumption 2). -/
opaque outCapLessEight : Fin 65528

/-- Free: SEQ_RESET (R4, OPEN; assumption 2). -/
opaque seqReset : BitVec 16

/-- Free: ECHO_EN_RESET (R4, OPEN; assumption 2). -/
opaque echoEnReset : Bool

/-- The parameters of the instance that `State.reset` describes: free within the ranges of R4. -/
def params : Params where
  inCap := BitVec.ofNat 16 (inCapLessOne.val + 1)
  outCap := BitVec.ofNat 16 (outCapLessEight.val + 8)
  seqReset := seqReset
  echoEnReset := echoEnReset

/-- Free: the byte that index `i` of a buffer holds while nothing has written it since the `epoch`-th
reset (R31, R56, U1: "any value", stable until written; assumption 3). -/
opaque unwritten (sp : Side) (epoch i : Nat) : BitVec 8

/-- Free: what a read that faults after the `epoch`-th reset returns to the host, if anything. R178 and R179
give it no value; the fault freezes the block, so there is at most one such read between two resets
(assumption 4). -/
opaque faultedReadout (epoch : Nat) : Option (BitVec 128)

end Config

end Sys2Proof
end

