-- ==== Sys2Proof/Syntax.lean ====
section
/-! DEFINITION. The commands of PHF/ERE: one constructor per row of spec/opcode_table.json
(spec/30_encoding.md R62 to R65). -/

namespace Sys2Proof

/-- A command. Each operand field has exactly the width its format gives it (R66), so every term is a
command the spec's formats Z, S and R can express. -/
inductive Instr where
  /-- SEED info, nh, plen: the pseudo-header seed into ACC (R63, R96). -/
  | seed (info : Side) (nh : BitVec 8) (plen : BitVec 16)
  /-- FOLD buf, off, len: a byte range into ACC (R64, R97). -/
  | fold (buf : Side) (off len : BitVec 16)
  /-- TXSUM buf, off, len: the transmit checksum of a range into its field (R64, R99). -/
  | txsum (buf : Side) (off len : BitVec 16)
  /-- ENCQ: prepend an echo-request header (R62, R120). -/
  | encq
  /-- ENCR: encode an echo reply (R62, R140). -/
  | encr
  /-- RX: validate and route the inbound message (R62, R155). -/
  | rx
  /-- ALLOC: take ownership of the outbound buffer (R62, R175). -/
  | alloc
  /-- REL: release the outbound message (R62, R176). -/
  | rel
  deriving DecidableEq, Repr

end Sys2Proof
end

