-- ==== Sys2Proof/WellFormed.lean ====
section
/-! DEFINITION. What is well formed: a command word (the match and mask of spec/opcode_table.json,
spec/30_encoding.md R65, R67) and a set of parameters (spec/00_scope.md R4). A term of `Instr` needs no
check of its own: its operand fields have the widths of its format. -/

namespace Sys2Proof

/-- One row of the opcode table: a word `w` is this row's when `w & mask = pattern` (R65). -/
structure OpcodeRow where
  mnemonic : String
  pattern : BitVec 64
  mask : BitVec 64
  deriving DecidableEq, Repr

/-- The opcode table, row by row as spec/opcode_table.json has it. -/
def opcodeRows : List OpcodeRow :=
  [ ⟨"SEED",  0x0100000000000000#64, 0xFF00FFFFFFFE0000#64⟩,
    ⟨"FOLD",  0x0200000000000000#64, 0xFFFEFFFF00000000#64⟩,
    ⟨"TXSUM", 0x0300000000000000#64, 0xFFFEFFFF00000000#64⟩,
    ⟨"ENCQ",  0x1000000000000000#64, 0xFFFFFFFFFFFFFFFF#64⟩,
    ⟨"ENCR",  0x1100000000000000#64, 0xFFFFFFFFFFFFFFFF#64⟩,
    ⟨"RX",    0x1200000000000000#64, 0xFFFFFFFFFFFFFFFF#64⟩,
    ⟨"ALLOC", 0x2000000000000000#64, 0xFFFFFFFFFFFFFFFF#64⟩,
    ⟨"REL",   0x2100000000000000#64, 0xFFFFFFFFFFFFFFFF#64⟩ ]

/-- The row's match and mask select the word (R65). -/
def OpcodeRow.selects (r : OpcodeRow) (w : BitVec 64) : Bool := w &&& r.mask == r.pattern

/-- The word's bits 63:56 are one of the eight opcodes (R67 (a)). -/
def opcodeAssigned (w : BitVec 64) : Bool :=
  opcodeRows.any fun r => w.extractLsb' 56 8 == r.pattern.extractLsb' 56 8

/-- The word is a command: some row of the table selects it (R65, R67). -/
def wordWF (w : BitVec 64) : Bool := opcodeRows.any fun r => r.selects w

/-- The parameters are in the ranges of R4: IN_CAP at least 1, OUT_CAP at least 8 (the upper bounds
65535 are the fields' widths). -/
def Params.wf (p : Params) : Bool := decide (1 ≤ p.inCap.toNat) && decide (8 ≤ p.outCap.toNat)

end Sys2Proof
end

