-- ==== Sys2Proof/Decode.lean ====
section
/-! DEFINITION. The command word: its fields, the decoder (total on every 64-bit word, rejecting by name)
and the encoder (spec/30_encoding.md R60 to R67). -/

namespace Sys2Proof

/-- What a command word decodes to: a command, or the reason of R67 why it is none. -/
inductive Decoded where
  /-- The word is this command. -/
  | instr (i : Instr)
  /-- `w[63:56]` is no assigned opcode: F_ILLOP (R67 (a)). -/
  | illegalOpcode
  /-- The opcode is assigned and a must-be-zero bit of its format is 1: F_RSVD (R67 (b)). -/
  | reservedBits
  deriving DecidableEq, Repr

/-- `op = w[63:56]` (R61). -/
def fieldOp (w : BitVec 64) : BitVec 8 := w.extractLsb' 56 8

/-- `sel = w[55:48]`, SEED's `nh` (R61, R63). -/
def fieldSel (w : BitVec 64) : BitVec 8 := w.extractLsb' 48 8

/-- `zero = w[47:32]` (R61). -/
def fieldZero (w : BitVec 64) : BitVec 16 := w.extractLsb' 32 16

/-- `x = w[31:16]`, FOLD's and TXSUM's `off` (R61, R64). -/
def fieldX (w : BitVec 64) : BitVec 16 := w.extractLsb' 16 16

/-- `y = w[15:0]`, SEED's `plen`, FOLD's and TXSUM's `len` (R61, R66). -/
def fieldY (w : BitVec 64) : BitVec 16 := w.extractLsb' 0 16

/-- `w[31:17]`, must be zero in format S (R63). -/
def fieldSeedZero (w : BitVec 64) : BitVec 15 := w.extractLsb' 17 15

/-- `w[55:49]`, must be zero in format R (R64). -/
def fieldRangeZero (w : BitVec 64) : BitVec 7 := w.extractLsb' 49 7

/-- The message a select bit names: 0 the inbound one, 1 the outbound one (R63, R64). -/
def sideOfBit (b : BitVec 1) : Side := if b = 0#1 then .inbound else .outbound

/-- The select bit of a message (R63, R64; the space's bit in a buffer-access record, R179). -/
def sideBit : Side → BitVec 1
  | .inbound => 0#1
  | .outbound => 1#1

/-- Format Z: every bit below the opcode must be zero (R62). -/
def decodeZ (i : Instr) (w : BitVec 64) : Decoded :=
  if fieldSel w = 0#8 ∧ fieldZero w = 0#16 ∧ fieldX w = 0#16 ∧ fieldY w = 0#16 then .instr i
  else .reservedBits

/-- Format S (R63). -/
def decodeS (w : BitVec 64) : Decoded :=
  if fieldZero w = 0#16 ∧ fieldSeedZero w = 0#15 then
    .instr (.seed (sideOfBit (w.extractLsb' 16 1)) (fieldSel w) (fieldY w))
  else .reservedBits

/-- Format R (R64), for the command `mk buf off len`. -/
def decodeR (mk : Side → BitVec 16 → BitVec 16 → Instr) (w : BitVec 64) : Decoded :=
  if fieldRangeZero w = 0#7 ∧ fieldZero w = 0#16 then
    .instr (mk (sideOfBit (w.extractLsb' 48 1)) (fieldX w) (fieldY w))
  else .reservedBits

/-- The decoder: the opcode selects the row, then the format's must-be-zero bits are checked
(R65, R67; the order of R202). -/
def decode (w : BitVec 64) : Decoded :=
  if fieldOp w = 0x01#8 then decodeS w
  else if fieldOp w = 0x02#8 then decodeR .fold w
  else if fieldOp w = 0x03#8 then decodeR .txsum w
  else if fieldOp w = 0x10#8 then decodeZ .encq w
  else if fieldOp w = 0x11#8 then decodeZ .encr w
  else if fieldOp w = 0x12#8 then decodeZ .rx w
  else if fieldOp w = 0x20#8 then decodeZ .alloc w
  else if fieldOp w = 0x21#8 then decodeZ .rel w
  else .illegalOpcode

/-- A word of format Z (R62). -/
def encodeZ (op : BitVec 8) : BitVec 64 := op ++ 0#8 ++ 0#16 ++ 0#16 ++ 0#16

/-- A word of format R (R64). -/
def encodeR (op : BitVec 8) (buf : Side) (off len : BitVec 16) : BitVec 64 :=
  op ++ 0#7 ++ sideBit buf ++ 0#16 ++ off ++ len

/-- The encoder: the word of a command (R62 to R65, R78). -/
def encode : Instr → BitVec 64
  | .seed info nh plen => 0x01#8 ++ nh ++ 0#16 ++ 0#15 ++ sideBit info ++ plen
  | .fold buf off len => encodeR 0x02#8 buf off len
  | .txsum buf off len => encodeR 0x03#8 buf off len
  | .encq => encodeZ 0x10#8
  | .encr => encodeZ 0x11#8
  | .rx => encodeZ 0x12#8
  | .alloc => encodeZ 0x20#8
  | .rel => encodeZ 0x21#8

/-- The command word of an opcode-table row whose `nbits` low bits are `w`. A command is one 64-bit
number (R60) with no byte order (R42), so bit `k` of the table is bit `k` of the word. -/
def tableWord (nbits w : Nat) : BitVec 64 := BitVec.ofNat 64 (w % 2 ^ nbits)

/-- The command the decoder reads from an opcode-table word; none where it rejects it. -/
def decodeTableWord (nbits w : Nat) : Option Instr :=
  match decode (tableWord nbits w) with
  | .instr i => some i
  | .illegalOpcode => none
  | .reservedBits => none

end Sys2Proof
end

