-- ==== Sys2Proof/Machine/Regs.lean ====
section
/-! DEFINITION. The register map and the host's actions (spec/10_state.md R11; spec/44_control.md R177 to
R179, R183). -/

namespace Sys2Proof.Machine

/-- The registers of R11, in the order of its table. -/
inductive Reg where
  | cmd | res | status | fcode | fcmd | acc | seq | ident | echoEn | rhSet | logNobuf
  | iPeer | iLocal | iIfid | inLen | inOff
  | oPeer | oLocal | oIfid | outLen | outOff
  deriving DecidableEq, Repr

/-- The register's width in bits (R11). -/
def Reg.width : Reg → Nat
  | .cmd => 64 | .res => 8 | .status => 8 | .fcode => 8 | .fcmd => 64 | .acc => 16 | .seq => 16
  | .ident => 16 | .echoEn => 1 | .rhSet => 1 | .logNobuf => 1
  | .iPeer => 128 | .iLocal => 128 | .iIfid => 32 | .inLen => 16 | .inOff => 16
  | .oPeer => 128 | .oLocal => 128 | .oIfid => 32 | .outLen => 16 | .outOff => 16

/-- The register's number (R11). -/
def Reg.num : Reg → BitVec 8
  | .cmd => 0x00#8 | .res => 0x01#8 | .status => 0x02#8 | .fcode => 0x03#8 | .fcmd => 0x04#8
  | .acc => 0x05#8 | .seq => 0x06#8 | .ident => 0x07#8 | .echoEn => 0x08#8 | .rhSet => 0x09#8
  | .logNobuf => 0x0A#8
  | .iPeer => 0x10#8 | .iLocal => 0x11#8 | .iIfid => 0x12#8 | .inLen => 0x13#8 | .inOff => 0x14#8
  | .oPeer => 0x18#8 | .oLocal => 0x19#8 | .oIfid => 0x1A#8 | .outLen => 0x1B#8 | .outOff => 0x1C#8

/-- Every register, in the order of R11's table. -/
def allRegs : List Reg :=
  [.cmd, .res, .status, .fcode, .fcmd, .acc, .seq, .ident, .echoEn, .rhSet, .logNobuf,
   .iPeer, .iLocal, .iIfid, .inLen, .inOff, .oPeer, .oLocal, .oIfid, .outLen, .outOff]

/-- The register of a number; none where the number is unassigned (R11). -/
def regOfNum (n : BitVec 8) : Option Reg := allRegs.find? fun r => r.num == n

/-- The width of the value the register port carries for a number: the register's own width (R177); an
unassigned number has no register, hence no value bits (assumption 5). -/
def portWidth (n : BitVec 8) : Nat :=
  match regOfNum n with
  | some r => r.width
  | none => 0

/-- What the host can do to the block, one action a step (R8, R177 to R179, R183). A command is the action
`wr 0x00 w` (R13). -/
inductive HostAction where
  /-- `WR r, v`: write register number `n`; the value has exactly the register's width (R177). -/
  | wr (n : BitVec 8) (v : BitVec (portWidth n))
  /-- `RD r`: read register number `n` (R178). -/
  | rd (n : BitVec 8)
  /-- `WRB S, i, v`: write one byte of a buffer (R179). -/
  | wrb (sp : Side) (i : BitVec 16) (v : BitVec 8)
  /-- `RDB S, i`: read one byte of a buffer (R179). -/
  | rdb (sp : Side) (i : BitVec 16)
  /-- `RESET` (R183). -/
  | reset
  deriving DecidableEq, Repr

end Sys2Proof.Machine
end

