-- ==== Sys2Proof/Machine/State.lean ====
section
/-! DEFINITION. The state of one PHF/ERE instance, its reset value, and the ways a step can stop
(spec/10_state.md R10, R31; spec/60_exceptions.md R203). -/

namespace Sys2Proof.Machine

/-- A byte memory: the bytes written since reset, as cells with strictly rising addresses. An address with
no cell has no written value (R29, R56; assumption 3). -/
structure Memory where
  cells : List Host.Cell
  deriving DecidableEq, Repr

/-- The state of R10, and after it four fields that are the model's own: `params`, `epoch`, `readout` and
`script` (assumptions 1 to 4). STATUS, ALL1 and IDENT hold nothing (R10, R16, R17, R22) and have no field. -/
@[ext]
structure State where
  /-- ACC, the checksum accumulator (R14). -/
  acc : BitVec 16
  /-- I_PEER, peer address of the inbound message (R25). -/
  iPeer : BitVec 128
  /-- I_LOCAL, local address of the inbound message (R25). -/
  iLocal : BitVec 128
  /-- I_IFID, interface identifier of the inbound message (R25). -/
  iIfid : BitVec 32
  /-- O_PEER, peer address of the outbound message (R26). -/
  oPeer : BitVec 128
  /-- O_LOCAL, local address of the outbound message (R26). -/
  oLocal : BitVec 128
  /-- O_IFID, interface identifier of the outbound message (R26). -/
  oIfid : BitVec 32
  /-- IN_LEN, length of the inbound message (R27). -/
  inLen : BitVec 16
  /-- IN_OFF, cursor of the inbound message (R27). -/
  inOff : BitVec 16
  /-- OUT_LEN, length of the outbound message (R28). -/
  outLen : BitVec 16
  /-- OUT_OFF, cursor of the outbound message (R28). -/
  outOff : BitVec 16
  /-- SEQ, the echo sequence counter (R21). -/
  seq : BitVec 16
  /-- ECHO_EN, echo-serving enabled (R23). -/
  echoEn : Bool
  /-- RH_SET, a reply handler is registered (R24). -/
  rhSet : Bool
  /-- RES, ACT in bits 7:4 and ERR in bits 3:0 (R15). -/
  res : BitVec 8
  /-- OUT_BUSY, the outbound buffer is owned (R18). -/
  outBusy : Bool
  /-- LOG_NOBUF, a reply could not be encoded for lack of a buffer (R19). -/
  logNobuf : Bool
  /-- FAULT, the block is frozen (R20, R204). -/
  fault : Bool
  /-- FCODE, the fault's cause (R20, R76). -/
  fcode : BitVec 8
  /-- FCMD, what raised the fault (R20). -/
  fcmd : BitVec 64
  /-- `IN.b`, the inbound buffer's bytes (R29). -/
  inMem : Memory
  /-- `OUT.b`, the outbound buffer's bytes (R29). -/
  outMem : Memory
  /-- The model's own: the instance's OPEN parameters; no step changes them (R4, R30; assumption 2). -/
  params : Params
  /-- The model's own: how many RESET actions there have been; it picks the free bytes of `Config.unwritten`
  and the free value of a faulting read (R31, U1; assumptions 3 and 4). -/
  epoch : Nat
  /-- The model's own: what the last RD or RDB returned to the host, zero-extended to 128 bits; none where
  there was no read since reset, a free value where the read faulted (R178, R179; assumption 4). -/
  readout : Option (BitVec 128)
  /-- The model's own: the host's actions still to come, the next one first (R8, R12; assumption 1). -/
  script : List HostAction
  deriving DecidableEq, Repr

/-- Ways a step could stop the machine. There are none, so this type has no constructor: a fault of the
spec is a NEXT state, in which FAULT is 1 and the block is frozen (R203, R204; assumption 6). Nobody raises
one, which is safe: nothing is cut short. -/
inductive Fault where
  deriving DecidableEq, Repr

/-- Ways a step could have no meaning. -/
inductive Refusal where
  /-- Raised only by an arm of `exec` whose instruction has no meaning yet; no arm is. Safe: a refused step
  proves nothing about the hardware. -/
  | notModelled (mnemonic : String)
  deriving DecidableEq, Repr

/-- The reset value of R31 for an instance with the parameters `p`, with the free buffer bytes of reset
number `e`, nothing read and nothing for the host to do. -/
def State.initial (p : Params) (e : Nat) : State where
  acc := 0x0000#16
  iPeer := 0#128
  iLocal := 0#128
  iIfid := 0#32
  oPeer := 0#128
  oLocal := 0#128
  oIfid := 0#32
  inLen := 0#16
  inOff := 0#16
  outLen := 0#16
  outOff := 0#16
  seq := p.seqReset
  echoEn := p.echoEnReset
  rhSet := false
  res := 0x00#8
  outBusy := false
  logNobuf := false
  fault := false
  fcode := 0x00#8
  fcmd := 0#64
  inMem := ⟨[]⟩
  outMem := ⟨[]⟩
  params := p
  epoch := e
  readout := none
  script := []

/-- The machine right after its first reset (R31, R230), for the free parameters of R4. -/
def State.reset : State := State.initial Config.params 0

end Sys2Proof.Machine
end

