-- ==== Sys2Proof/Machine/Operands.lean ====
section
/-! DEFINITION. What the commands take their operands from: the two messages' registers, 16-bit values as
big-endian bytes, address registers as wire bytes, and the header a command builds
(spec/00_scope.md R6; spec/20_memory.md R42; spec/30_encoding.md R70, R74, R77, R80). -/

namespace Sys2Proof.Machine

/-- `be16(b0, b1)` (R6, R42). -/
def be16 (b0 b1 : BitVec 8) : BitVec 16 := b0 ++ b1

/-- `hi8(v) = v[15:8]` (R6). -/
def hi8 (v : BitVec 16) : BitVec 8 := v.extractLsb' 8 8

/-- `lo8(v) = v[7:0]` (R6). -/
def lo8 (v : BitVec 16) : BitVec 8 := v.extractLsb' 0 8

/-- Byte `k` of an address, `a[k]`; byte 0 is the first on the wire and sits in bits 127:120 (R6). -/
def addrByte (a : BitVec 128) (k : Nat) : BitVec 8 := a.extractLsb' (8 * (15 - k)) 8

/-- The 16 bytes of an address in wire order (R6). -/
def addrBytes (a : BitVec 128) : List (BitVec 8) := (List.range 16).map (addrByte a)

/-- A multicast address: first byte 0xFF (R80 (a)). -/
def isMulticast (a : BitVec 128) : Bool := addrByte a 0 == 0xFF#8

/-- The unspecified address: 16 zero bytes (R80 (b)). -/
def unspecified : BitVec 128 := 0#128

/-- `S.len` (R7, R27, R28). -/
def lenOf (s : State) : Side → BitVec 16
  | .inbound => s.inLen
  | .outbound => s.outLen

/-- `S.off` (R7, R27, R28). -/
def offOf (s : State) : Side → BitVec 16
  | .inbound => s.inOff
  | .outbound => s.outOff

/-- `S_CAP` (R4, R33). -/
def capOf (s : State) : Side → BitVec 16
  | .inbound => s.params.inCap
  | .outbound => s.params.outCap

/-- The bytes of a space (R40). -/
def memOf (s : State) : Side → Memory
  | .inbound => s.inMem
  | .outbound => s.outMem

/-- The local address of a message (R25, R26), the first of SEED's pair (R96). -/
def localOf (s : State) : Side → BitVec 128
  | .inbound => s.iLocal
  | .outbound => s.oLocal

/-- The peer address of a message (R25, R26), the second of SEED's pair (R96). -/
def peerOf (s : State) : Side → BitVec 128
  | .inbound => s.iPeer
  | .outbound => s.oPeer

/-- The bytes of an echo header: a fresh header, eight zero bytes (R77), with its type, identifier and
sequence set, big-endian (R70, R121). -/
def echoHeader (ty : BitVec 8) (ident seq : BitVec 16) : List (BitVec 8) :=
  [ty, 0x00#8, 0x00#8, 0x00#8, hi8 ident, lo8 ident, hi8 seq, lo8 seq]

/-- The 40 bytes of the pseudo-header (R74): source, destination, 32-bit length, three zero bytes, next
header. -/
def pseudoHeader (src dst : BitVec 128) (plen : BitVec 16) (nh : BitVec 8) : List (BitVec 8) :=
  addrBytes src ++ addrBytes dst
    ++ [0x00#8, 0x00#8, hi8 plen, lo8 plen] ++ [0x00#8, 0x00#8, 0x00#8] ++ [nh]

end Sys2Proof.Machine
end

