-- ==== Sys2Proof/Machine/Arith.lean ====
section
/-! DEFINITION. The one's-complement arithmetic of the internet checksum (spec/40_checksum.md R90 to R95). -/

namespace Sys2Proof.Machine

/-- `oc_add`: the exact sum, its carry added back in at bit 0 (R90). -/
def ocAdd (a b : BitVec 16) : BitVec 16 :=
  BitVec.ofNat 16 ((a.toNat + b.toNat) % 65536 + (a.toNat + b.toNat) / 65536)

/-- `oc_sum(a, words)` (R91). -/
def ocSum (a : BitVec 16) (ws : List (BitVec 16)) : BitVec 16 := ws.foldl ocAdd a

/-- `words_of(s)`: bytes in pairs from the start, high byte first, a last single byte padded with a zero
low byte (R93). -/
def wordsOf : List (BitVec 8) → List (BitVec 16)
  | [] => []
  | [b] => [be16 b 0x00#8]
  | b0 :: b1 :: rest => be16 b0 b1 :: wordsOf rest

/-- `fold(a, s)` (R94). -/
def foldBytes (a : BitVec 16) (s : List (BitVec 8)) : BitVec 16 := ocSum a (wordsOf s)

/-- `seed_of(A, B, plen, nh)` (R95). -/
def seedOf (a b : BitVec 128) (plen : BitVec 16) (nh : BitVec 8) : BitVec 16 :=
  ocSum 0x0000#16
    (wordsOf (addrBytes a) ++ wordsOf (addrBytes b) ++ [0x0000#16, plen, 0x0000#16, nh.setWidth 16])

/-- The checksum a transmitter writes for the fold `f` of the range with its field zero: complemented,
unless `f` is already 0xFFFF (R99). -/
def txChecksum (f : BitVec 16) : BitVec 16 := if f = 0xFFFF#16 then 0xFFFF#16 else ~~~f

end Sys2Proof.Machine
end

