-- ==== Sys2Proof/Machine/Flags.lean ====
section
/-! DEFINITION. The flag and status views, and the codes of RES and FCODE (spec/10_state.md R15 to R17;
spec/30_encoding.md R75, R76). -/

namespace Sys2Proof.Machine

/-- ALL1: ACC is 0xFFFF (R17). A view, not stored. -/
def all1 (s : State) : Bool := s.acc == 0xFFFF#16

/-- STATUS: ALL1 in bit 0, OUT_BUSY in bit 1, LOG_NOBUF in bit 2, FAULT in bit 3, bits 7:4 zero (R16). -/
def statusByte (s : State) : BitVec 8 :=
  0#4 ++ BitVec.ofBool s.fault ++ BitVec.ofBool s.logNobuf ++ BitVec.ofBool s.outBusy
    ++ BitVec.ofBool (all1 s)

/-- ERR, RES[3:0] (R75). -/
inductive Err where
  | none | nobufs | noroom | fault
  deriving DecidableEq, Repr

/-- ACT, RES[7:4] (R75). -/
inductive Act where
  | none | send | deliver | unreach
  deriving DecidableEq, Repr

/-- The number of an ERR (R75). -/
def errCode : Err → BitVec 4
  | .none => 0#4 | .nobufs => 1#4 | .noroom => 2#4 | .fault => 3#4

/-- The number of an ACT (R75). -/
def actCode : Act → BitVec 4
  | .none => 0#4 | .send => 1#4 | .deliver => 2#4 | .unreach => 3#4

/-- RES as `{ACT, ERR}` (R15, R75). -/
def resByte (e : Err) (a : Act) : BitVec 8 := actCode a ++ errCode e

/-- The fault causes (R76, R201). -/
inductive Cause where
  | illop | rsvd | nomsg | msgstate | range | regacc | bufacc
  deriving DecidableEq, Repr

/-- The cause's number in FCODE (R76). -/
def causeCode : Cause → BitVec 8
  | .illop => 0x01#8 | .rsvd => 0x02#8 | .nomsg => 0x03#8 | .msgstate => 0x04#8
  | .range => 0x05#8 | .regacc => 0x06#8 | .bufacc => 0x07#8

end Sys2Proof.Machine
end

