-- ==== Sys2Proof/Machine/Ops.lean ====
section
/-! DEFINITION. The operations the commands and the host's accesses share: the byte memories, the substrate
primitives, registers, fault entry, and running a command (spec/20_memory.md R42, R53 to R55;
spec/10_state.md R11, R20, R33; spec/60_exceptions.md R201 to R204). -/

namespace Sys2Proof.Machine

/-- The value written at an address, none where nothing has written it since reset. -/
def lookupCell (a : Nat) : List Host.Cell → Option (BitVec 8)
  | [] => none
  | (b, v) :: rest => if a = b then some v else lookupCell a rest

/-- Write one byte, keeping the addresses strictly rising. -/
def insertCell (a : Nat) (v : BitVec 8) : List Host.Cell → List Host.Cell
  | [] => [(a, v)]
  | (b, w) :: rest =>
    if a < b then (a, v) :: (b, w) :: rest
    else if a = b then (a, v) :: rest
    else (b, w) :: insertCell a v rest

/-- Write a byte sequence from an address upward. -/
def insertCells (a : Nat) : List (BitVec 8) → List Host.Cell → List Host.Cell
  | [], cs => cs
  | v :: vs, cs => insertCells (a + 1) vs (insertCell a v cs)

/-- Every address in the list is above `a`, each above the one before it. -/
def risingFrom (a : Nat) : List Host.Cell → Bool
  | [] => true
  | (b, _) :: rest => decide (a < b) && risingFrom b rest

/-- The canonical form of a memory: addresses strictly rising. An address with no cell reads as no written
value at all, so no cell can equal it (assumption 3). -/
def Memory.wf (m : Memory) : Bool :=
  match m.cells with
  | [] => true
  | (b, _) :: rest => risingFrom b rest

/-- Every cell lies below a capacity (R40). -/
def Memory.below (cap : Nat) (m : Memory) : Bool := m.cells.all fun c => decide (c.1 < cap)

/-- `S.b[i]`: the byte written there, or the free value of a byte nothing has written since reset
(R29, R56; assumption 3). -/
def readByte (s : State) (sp : Side) (i : Nat) : BitVec 8 :=
  (lookupCell i (memOf s sp).cells).getD (Config.unwritten sp s.epoch i)

/-- `MemRead(S, a, n)` (R7). Its users check R55's bounds first. -/
def memRead (s : State) (sp : Side) (a n : Nat) : List (BitVec 8) :=
  (List.range n).map fun k => readByte s sp (a + k)

/-- `MemWrite(S, a, |bs|, bs)` (R7). Its users check R55's bounds first. -/
def memWrite (s : State) (sp : Side) (a : Nat) (bs : List (BitVec 8)) : State :=
  match sp with
  | .inbound => { s with inMem := ⟨insertCells a bs s.inMem.cells⟩ }
  | .outbound => { s with outMem := ⟨insertCells a bs s.outMem.cells⟩ }

/-- `Prepend(OUT, h)`: the old message bytes move up by `|h|`, `h` takes their place, OUT_LEN grows (R53).
Defined where OUT_LEN + |h| ≤ OUT_CAP, which its user checks. -/
def prependOut (s : State) (h : List (BitVec 8)) : State :=
  let old := memRead s .outbound 0 s.outLen.toNat
  { memWrite s .outbound 0 (h ++ old) with outLen := s.outLen + BitVec.ofNat 16 h.length }

/-- `CopyRange(IN, a, OUT, d, n)` (R54). -/
def copyRange (s : State) (a d n : Nat) : State := memWrite s .outbound d (memRead s .inbound a n)

/-- `MsgOK(S)`: cursor within length, length within capacity (R33). -/
def msgOK (s : State) (sp : Side) : Bool :=
  decide ((offOf s sp).toNat ≤ (lenOf s sp).toNat) && decide ((lenOf s sp).toNat ≤ (capOf s sp).toNat)

/-- `raise Fault(code)`: FAULT, FCODE, FCMD and RES are written and nothing else (R203); `record` is that
of R20. Leaving the frozen state is `resetAction` (R204). -/
def raiseFault (c : Cause) (record : BitVec 64) (s : State) : State :=
  { s with fault := true, fcode := causeCode c, fcmd := record, res := resByte .fault .none }

/-- RESET: every piece of state to its reset value (R183, R31). The host's further actions stand, the
parameters are the instance's, and the buffer bytes are free anew (assumptions 1 to 3). -/
def resetAction (s : State) : State :=
  { State.initial s.params (s.epoch + 1) with script := s.script }

/-- `return (e, a)`: the command ends with RES = {a, e} (R7, R15). -/
def finish (e : Err) (a : Act) (s : State) : State := { s with res := resByte e a }

/-- Run the command `i`: nothing while the block is frozen (R204); else the first fault its checks found, with
the command word recorded (R20, R203); else its effect. -/
def runCommand (i : Instr) (check : Option Cause) (effect s : State) :
    Host.Outcome State Fault Refusal :=
  .next (if s.fault then s
    else match check with
      | some c => raiseFault c (encode i) s
      | none => effect)

/-- The checks of FOLD and TXSUM in the order of R202: F_NOMSG, F_MSGSTATE, F_RANGE; `least` is the
shortest legal range (R97, R99). The sum `off + len` does not wrap (R55, R66). -/
def rangeCheck (s : State) (buf : Side) (off len : BitVec 16) (least : Nat) : Option Cause :=
  if buf = .outbound ∧ s.outBusy = false then some .nomsg
  else if msgOK s buf = false then some .msgstate
  else if off.toNat + len.toNat > (lenOf s buf).toNat ∨ len.toNat < least then some .range
  else none

/-- The check of ENCR and RX: F_MSGSTATE of IN (R140, R155). -/
def inboundCheck (s : State) : Option Cause := if msgOK s .inbound then none else some .msgstate

/-- What the host reads from a register, zero-extended to the port's widest value; none where the map allows
no read (CMD, R13). IDENT is hard-wired (R22); STATUS is a view (R16); no read changes state (R45, R178). -/
def readReg (s : State) : Reg → Option (BitVec 128)
  | .cmd => none
  | .res => some (s.res.setWidth 128)
  | .status => some ((statusByte s).setWidth 128)
  | .fcode => some (s.fcode.setWidth 128)
  | .fcmd => some (s.fcmd.setWidth 128)
  | .acc => some (s.acc.setWidth 128)
  | .seq => some (s.seq.setWidth 128)
  | .ident => some (Config.ident.setWidth 128)
  | .echoEn => some ((BitVec.ofBool s.echoEn).setWidth 128)
  | .rhSet => some ((BitVec.ofBool s.rhSet).setWidth 128)
  | .logNobuf => some ((BitVec.ofBool s.logNobuf).setWidth 128)
  | .iPeer => some s.iPeer
  | .iLocal => some s.iLocal
  | .iIfid => some (s.iIfid.setWidth 128)
  | .inLen => some (s.inLen.setWidth 128)
  | .inOff => some (s.inOff.setWidth 128)
  | .oPeer => some s.oPeer
  | .oLocal => some s.oLocal
  | .oIfid => some (s.oIfid.setWidth 128)
  | .outLen => some (s.outLen.setWidth 128)
  | .outOff => some (s.outOff.setWidth 128)

/-- A host write of a plain register: `x[r] <- v` and nothing else; none where the register is not one the
host may write as storage (R177). `v` is the value, at or above the register's width. -/
def writeReg (s : State) (v : BitVec 128) : Reg → Option State
  | .acc => some { s with acc := v.setWidth 16 }
  | .echoEn => some { s with echoEn := v.getLsbD 0 }
  | .rhSet => some { s with rhSet := v.getLsbD 0 }
  | .logNobuf => some { s with logNobuf := v.getLsbD 0 }
  | .iPeer => some { s with iPeer := v }
  | .iLocal => some { s with iLocal := v }
  | .iIfid => some { s with iIfid := v.setWidth 32 }
  | .inLen => some { s with inLen := v.setWidth 16 }
  | .inOff => some { s with inOff := v.setWidth 16 }
  | .oPeer => some { s with oPeer := v }
  | .oLocal => some { s with oLocal := v }
  | .oIfid => some { s with oIfid := v.setWidth 32 }
  | .outLen => some { s with outLen := v.setWidth 16 }
  | .outOff => some { s with outOff := v.setWidth 16 }
  | .cmd => none
  | .res => none
  | .status => none
  | .fcode => none
  | .fcmd => none
  | .seq => none
  | .ident => none

/-- FCMD's record of a register access: the register number (R20). -/
def regRecord (n : BitVec 8) : BitVec 64 := n.setWidth 64

/-- FCMD's record of a buffer access: `{s, i}`, the space in bit 16 (R20, R179). -/
def bufRecord (sp : Side) (i : BitVec 16) : BitVec 64 := (sideBit sp ++ i).setWidth 64

end Sys2Proof.Machine
end

