-- ==== Sys2Proof/Machine/Checksum.lean ====
section
/-! DEFINITION. The checksum commands SEED, FOLD and TXSUM (spec/40_checksum.md R96, R97, R99). -/

namespace Sys2Proof.Machine

/-- SEED (R96): ACC becomes the pseudo-header seed of the pair `info` names. -/
def execSeed (info : Side) (nh : BitVec 8) (plen : BitVec 16) (s : State) :
    Host.Outcome State Fault Refusal :=
  runCommand (.seed info nh plen) none
    (finish .none .none { s with acc := seedOf (localOf s info) (peerOf s info) plen nh }) s

/-- FOLD (R97): the range's bytes are added into ACC. -/
def execFold (buf : Side) (off len : BitVec 16) (s : State) : Host.Outcome State Fault Refusal :=
  runCommand (.fold buf off len) (rangeCheck s buf off len 0)
    (finish .none .none { s with acc := foldBytes s.acc (memRead s buf off.toNat len.toNat) }) s

/-- The effect of TXSUM (R99): zero the field, fold, write the checksum, leave the fold in ACC. -/
def txsumEffect (buf : Side) (off len : BitVec 16) (s : State) : State :=
  let zeroed := memWrite s buf (off.toNat + 2) [0x00#8, 0x00#8]
  let f := foldBytes s.acc (memRead zeroed buf off.toNat len.toNat)
  let c := txChecksum f
  { memWrite zeroed buf (off.toNat + 2) [hi8 c, lo8 c] with acc := f }

/-- TXSUM (R99). -/
def execTxsum (buf : Side) (off len : BitVec 16) (s : State) : Host.Outcome State Fault Refusal :=
  runCommand (.txsum buf off len) (rangeCheck s buf off len Config.baseHdr)
    (finish .none .none (txsumEffect buf off len s)) s

end Sys2Proof.Machine
end

