-- ==== Sys2Proof/Machine/Control.lean ====
section
/-! DEFINITION. The ownership commands ALLOC and REL (spec/44_control.md R175, R176). -/

namespace Sys2Proof.Machine

/-- The effect of ALLOC (R175). -/
def allocEffect (s : State) : State :=
  if s.outBusy then finish .nobufs .none s
  else finish .none .none { s with outBusy := true, outLen := 0x0000#16, outOff := 0x0000#16 }

/-- ALLOC (R175). -/
def execAlloc (s : State) : Host.Outcome State Fault Refusal :=
  runCommand .alloc none (allocEffect s) s

/-- REL (R176). -/
def execRel (s : State) : Host.Outcome State Fault Refusal :=
  runCommand .rel (if s.outBusy then none else some .nomsg)
    (finish .none .none { s with outBusy := false }) s

end Sys2Proof.Machine
end

