-- ==== Sys2Proof/Machine/EchoRequest.lean ====
section
/-! DEFINITION. The echo-request encoder ENCQ (spec/41_echo_request.md R120 to R124). -/

namespace Sys2Proof.Machine

/-- The checks of ENCQ in the order of R202: F_NOMSG, F_MSGSTATE (R120). -/
def encqCheck (s : State) : Option Cause :=
  if s.outBusy = false then some .nomsg
  else if msgOK s .outbound = false then some .msgstate
  else none

/-- The effect of ENCQ (R120): the header takes SEQ as it was, SEQ steps whether or not the prepend
succeeds (R122), and the prepend fails with NOROOM where the message has no headroom (R124). -/
def encqEffect (s : State) : State :=
  let header := echoHeader Config.typeEchoRequest Config.ident s.seq
  let counted := { s with seq := s.seq + 1#16 }
  if s.outLen.toNat + Config.echoHdr > s.params.outCap.toNat then finish .noroom .none counted
  else finish .none .send { prependOut counted header with outOff := 0x0000#16 }

/-- ENCQ (R120). -/
def execEncq (s : State) : Host.Outcome State Fault Refusal :=
  runCommand .encq (encqCheck s) (encqEffect s) s

end Sys2Proof.Machine
end

