-- ==== Sys2Proof/Machine/EchoReply.lean ====
section
/-! DEFINITION. The echo-reply encoder ENCR (spec/42_echo_reply.md R140 to R150). -/

namespace Sys2Proof.Machine

/-- The reply is encoded (R143 to R147): length, cursor, the four header bytes, the identifier and
sequence, the payload, the metadata, ownership. `n` is the request's length from its cursor. -/
def buildReply (n : Nat) (s : State) : State :=
  let sized := { s with outLen := BitVec.ofNat 16 n, outOff := 0x0000#16 }
  let typed := memWrite sized .outbound 0 [Config.typeEchoReply, 0x00#8, 0x00#8, 0x00#8]
  let identified := copyRange typed (s.inOff.toNat + 4) 4 4
  let filled := copyRange identified (s.inOff.toNat + 8) 8 (n - 8)
  { filled with
    oPeer := s.iPeer
    oLocal := if isMulticast s.iLocal then unspecified else s.iLocal
    oIfid := s.iIfid
    outBusy := true }

/-- The steps of ENCR after its MsgOK check (R140), which RX runs too (R163). -/
def encodeReply (s : State) : State :=
  let n := s.inLen.toNat - s.inOff.toNat
  if s.echoEn = false then finish .none .none s
  else if s.outBusy then finish .none .none { s with logNobuf := true }
  else if n < Config.echoHdr then finish .none .none s
  else if n > s.params.outCap.toNat then finish .none .none { s with logNobuf := true }
  else finish .none .send (buildReply n s)

/-- ENCR (R140). -/
def execEncr (s : State) : Host.Outcome State Fault Refusal :=
  runCommand .encr (inboundCheck s) (encodeReply s) s

end Sys2Proof.Machine
end

