-- ==== Sys2Proof/Machine/Inbound.lean ====
section
/-! DEFINITION. The inbound validator and classifier RX (spec/43_inbound.md R155 to R168). -/

namespace Sys2Proof.Machine

/-- The fold RX leaves in ACC: the pseudo-header seed of the received datagram, then every byte from the
cursor to the end (R160, R161). -/
def inboundFold (s : State) : BitVec 16 :=
  let n := s.inLen.toNat - s.inOff.toNat
  foldBytes (seedOf s.iPeer s.iLocal (BitVec.ofNat 16 n) Config.nhIcmpv6)
    (memRead s .inbound s.inOff.toNat n)

/-- Dispatch by the type byte of a datagram that passed both tests (R162 to R167). -/
def routeInbound (ty : BitVec 8) (s : State) : State :=
  if ty = Config.typeEchoRequest then encodeReply s
  else if ty = Config.typeEchoReply then
    if s.echoEn ∧ s.rhSet then finish .none .deliver s else finish .none .none s
  else if ty = Config.typeUnreachable then
    finish .none .unreach { s with inOff := s.inOff + BitVec.ofNat 16 Config.baseHdr }
  else finish .none .none s

/-- The effect of RX (R155): the length test, the checksum test, the route. -/
def rxEffect (s : State) : State :=
  if s.inLen.toNat - s.inOff.toNat < Config.baseHdr then finish .none .none s
  else
    let summed := { s with acc := inboundFold s }
    if all1 summed then routeInbound (readByte s .inbound s.inOff.toNat) summed
    else finish .none .none summed

/-- RX (R155). -/
def execRx (s : State) : Host.Outcome State Fault Refusal :=
  runCommand .rx (inboundCheck s) (rxEffect s) s

end Sys2Proof.Machine
end

