-- ==== Sys2Proof/Machine/Dispatch.lean ====
section
/-! DEFINITION. From a command to its meaning, one arm per constructor of Instr. -/

namespace Sys2Proof.Machine

/-- The command `i` executed to completion in the state `s` (spec/10_state.md R13, spec/30_encoding.md R65). -/
def exec (i : Instr) (s : State) : Host.Outcome State Fault Refusal :=
  match i with
  | .seed info nh plen => Sys2Proof.Machine.execSeed info nh plen s
  | .fold buf off len => Sys2Proof.Machine.execFold buf off len s
  | .txsum buf off len => Sys2Proof.Machine.execTxsum buf off len s
  | .encq => Sys2Proof.Machine.execEncq s
  | .encr => Sys2Proof.Machine.execEncr s
  | .rx => Sys2Proof.Machine.execRx s
  | .alloc => Sys2Proof.Machine.execAlloc s
  | .rel => Sys2Proof.Machine.execRel s

end Sys2Proof.Machine
end

