-- ==== Sys2Proof/Machine/Ports.lean ====
section
/-! DEFINITION. The host's actions on the block: the command port, the register port, the buffer port and
reset, and the document's operations in terms of them (spec/44_control.md R177 to R184; spec/30_encoding.md
R78, R79). -/

namespace Sys2Proof.Machine

/-- A word written to CMD while the block is not frozen: its command runs, or the word itself faults
(R13, R67). -/
def runWord (w : BitVec 64) (s : State) : Host.Outcome State Fault Refusal :=
  match decode w with
  | .instr i => exec i s
  | .illegalOpcode => .next (raiseFault .illop w s)
  | .reservedBits => .next (raiseFault .rsvd w s)

/-- `WR r, v` (R177, R184). -/
def hostWrite (n : BitVec 8) (v : BitVec (portWidth n)) (s : State) :
    Host.Outcome State Fault Refusal :=
  if s.fault then .next s
  else match regOfNum n with
    | none => .next (raiseFault .regacc (regRecord n) s)
    | some .cmd => runWord (v.setWidth 64) s
    | some r =>
      match writeReg s (v.setWidth 128) r with
      | some t => .next t
      | none => .next (raiseFault .regacc (regRecord n) s)

/-- What `RD r` reads; none where the map allows no read of the number (R11, R178). -/
def readable (n : BitVec 8) (s : State) : Option (BitVec 128) :=
  match regOfNum n with
  | some r => readReg s r
  | none => none

/-- A host read that the port cannot serve: a fault that returns a free value, or zero while the block is frozen
(R178, R179, R184; assumption 4). -/
def deniedRead (c : Cause) (record : BitVec 64) (s : State) : State :=
  if s.fault then { s with readout := some 0#128 }
  else { raiseFault c record s with readout := Config.faultedReadout s.epoch }

/-- `RD r` (R178, R184). -/
def hostRead (n : BitVec 8) (s : State) : State :=
  match readable n s with
  | some v => { s with readout := some v }
  | none => deniedRead .regacc (regRecord n) s

/-- `WRB S, i, v` (R179, R184). -/
def hostWriteByte (sp : Side) (i : BitVec 16) (v : BitVec 8) (s : State) : State :=
  if s.fault then s
  else if i.toNat < (capOf s sp).toNat then memWrite s sp i.toNat [v]
  else raiseFault .bufacc (bufRecord sp i) s

/-- `RDB S, i` (R179, R184). -/
def hostReadByte (sp : Side) (i : BitVec 16) (s : State) : State :=
  if i.toNat < (capOf s sp).toNat then { s with readout := some ((readByte s sp i.toNat).setWidth 128) }
  else deniedRead .bufacc (bufRecord sp i) s

/-- One host action (R8). -/
def perform (a : HostAction) (s : State) : Host.Outcome State Fault Refusal :=
  match a with
  | .wr n v => hostWrite n v s
  | .rd n => .next (hostRead n s)
  | .wrb sp i v => .next (hostWriteByte sp i v s)
  | .rdb sp i => .next (hostReadByte sp i s)
  | .reset => .next (resetAction s)

/-- The host action that is a command: its word written to CMD (R78). -/
def commandAction (i : Instr) : HostAction := .wr 0x00#8 (encode i)

/-- The pseudo-command VERIFY (R79). -/
def verifyActions (off n : BitVec 16) : List HostAction :=
  [commandAction (.seed .inbound Config.nhIcmpv6 n), commandAction (.fold .inbound off n)]

/-- The pseudo-command TXCSUM (R79). -/
def txcsumActions (off n : BitVec 16) : List HostAction :=
  [commandAction (.seed .outbound Config.nhIcmpv6 n), commandAction (.txsum .outbound off n)]

/-- `SetEchoEnabled(b)` (R180). -/
def setEchoEnabled (b : Bool) : HostAction := .wr 0x08#8 (BitVec.ofBool b)

/-- `IsEchoEnabled()` (R181). -/
def isEchoEnabled : HostAction := .rd 0x08#8

/-- `SetEchoReplyHandler`: the part the block sees, whether a callback is present (R182). -/
def setEchoReplyHandler (present : Bool) : HostAction := .wr 0x09#8 (BitVec.ofBool present)

end Sys2Proof.Machine
end

