-- ==== Sys2Proof/Machine/Step.lean ====
section
/-! DEFINITION. One step: one host action (spec/00_scope.md R8; spec/10_state.md R12; assumption 1). -/

namespace Sys2Proof.Machine

/-- The next host action of the script is taken off it and performed; with none to come the block is idle
and holds its state (R210, R230). -/
def step (s : State) : Host.Outcome State Fault Refusal :=
  match s.script with
  | [] => .next s
  | a :: rest => perform a { s with script := rest }

/-- `s` with a command word where the step takes its next command from: as a write of CMD put before the
host's further actions (assumption 1). -/
def State.withFetchWord (s : State) (nbits w : Nat) : State :=
  { s with script := .wr 0x00#8 (tableWord nbits w) :: s.script }

end Sys2Proof.Machine
end

