-- ==== Sys2Proof/Safety.lean ====
section
/-! DEFINITION. The terms claims are stated in: the invariant, the state after reset, fault entry, what a
step leaves in memory, and the spec's closed forms. -/

namespace Sys2Proof.Machine

/-- The block is working: no fault since reset (R204). -/
def Working (s : State) : Prop := s.fault = false

/-- The invariant of the block: what holds at reset and after every step. -/
structure BlockInv (s : State) : Prop where
  /-- The parameters are in R4's ranges. -/
  paramsWf : s.params.wf = true
  /-- The bytes of IN keep their canonical form. -/
  inWf : s.inMem.wf = true
  /-- The bytes of OUT keep their canonical form. -/
  outWf : s.outMem.wf = true
  /-- No byte of IN lies at or beyond IN_CAP (R40). -/
  inBelow : s.inMem.below s.params.inCap.toNat = true
  /-- No byte of OUT lies at or beyond OUT_CAP (R40). -/
  outBelow : s.outMem.below s.params.outCap.toNat = true
  /-- RES holds one of its seven values (R75). -/
  resLegal : s.res ∈ [0x00#8, 0x01#8, 0x02#8, 0x03#8, 0x10#8, 0x20#8, 0x30#8]
  /-- FCODE names a cause of R76 exactly while FAULT is 1 (R20). -/
  faultCode : if s.fault then 1 ≤ s.fcode.toNat ∧ s.fcode.toNat ≤ 7 else s.fcode = 0x00#8 ∧ s.fcmd = 0#64
  /-- RES is 0x03 exactly while FAULT is 1 (R203, R204). -/
  faultRes : s.fault = true ↔ s.res = 0x03#8
  /-- After ACT = SEND, NOBUFS or NOROOM the outbound buffer is owned (R51, R124, R147, R175). -/
  ownedResult : s.res ∈ [0x10#8, 0x01#8, 0x02#8] → s.outBusy = true

/-- Every piece of the block's state is at the reset value of R31, for the state's own parameters. -/
structure AtReset (s : State) : Prop where
  acc : s.acc = 0x0000#16
  all1 : all1 s = false
  res : s.res = 0x00#8
  fault : s.fault = false
  fcode : s.fcode = 0x00#8
  fcmd : s.fcmd = 0#64
  outBusy : s.outBusy = false
  logNobuf : s.logNobuf = false
  seq : s.seq = s.params.seqReset
  ident : readReg s .ident = some 0x0001#128
  echoEn : s.echoEn = s.params.echoEnReset
  rhSet : s.rhSet = false
  addresses : s.iPeer = 0#128 ∧ s.iLocal = 0#128 ∧ s.oPeer = 0#128 ∧ s.oLocal = 0#128
  ifids : s.iIfid = 0#32 ∧ s.oIfid = 0#32
  descriptors : s.inLen = 0#16 ∧ s.inOff = 0#16 ∧ s.outLen = 0#16 ∧ s.outOff = 0#16
  /-- The buffer bytes are unspecified: each reads as the free value. -/
  bytes : ∀ sp i, readByte s sp i = Config.unwritten sp s.epoch i

/-- Fault entry (R203): `t` is `s` with FAULT, FCODE, FCMD and RES written and nothing else. -/
def FaultEntered (code : BitVec 8) (record : BitVec 64) (s t : State) : Prop :=
  t.fault = true ∧ t.fcode = code ∧ t.fcmd = record ∧ t.res = 0x03#8 ∧
    { t with fault := s.fault, fcode := s.fcode, fcmd := s.fcmd, res := s.res } = s

/-- Every byte of both spaces reads as before. -/
def BytesKept (s t : State) : Prop := ∀ sp i, readByte t sp i = readByte s sp i

/-- Every byte reads as before, but for the `n` bytes of the space `sp` from `a` upward. -/
def BytesKeptOutside (sp : Side) (a n : Nat) (s t : State) : Prop :=
  ∀ sp' i, (sp' = sp → i < a ∨ a + n ≤ i) → readByte t sp' i = readByte s sp' i

/-- `MsgOK(S)` (R33). -/
def MsgOk (s : State) (sp : Side) : Prop :=
  (offOf s sp).toNat ≤ (lenOf s sp).toNat ∧ (lenOf s sp).toNat ≤ (capOf s sp).toNat

/-- The message of the space exists: IN always, OUT while OUT_BUSY = 1 (R51, R52). -/
def Owned (s : State) (sp : Side) : Prop := sp = .outbound → s.outBusy = true

/-- The range lies inside the message, the sum taken without wrapping (R55). -/
def RangeOk (s : State) (sp : Side) (off len : BitVec 16) : Prop :=
  off.toNat + len.toNat ≤ (lenOf s sp).toNat

/-- The one's-complement value of an integer sum (R92): 0 for 0, else in 1 to 0xFFFF. -/
def endAround (total : Nat) : BitVec 16 :=
  if total = 0 then 0x0000#16 else BitVec.ofNat 16 ((total - 1) % 0xFFFF + 1)

/-- The integer sum of a list of 16-bit words. -/
def wordTotal (ws : List (BitVec 16)) : Nat := (ws.map BitVec.toNat).sum

/-- One reduction of a wide sum: its high part added to its low 16 bits (R92). -/
def reduceOnce (total : Nat) : Nat := total % 65536 + total / 65536

/-- The integer sum of an address's eight 16-bit words, by arithmetic on the 128-bit number. -/
def addrTotal (a : BitVec 128) : Nat :=
  ((List.range 8).map fun k => a.toNat / 65536 ^ k % 65536).sum

/-- The must-be-zero bits of the format of an opcode (R67 (b)): bits 47:32 in every format, 31:17 in format S,
55:49 in format R, 55:48 and 31:0 in format Z. -/
def mustBeZero (op : BitVec 8) : BitVec 64 :=
  if op = 0x01#8 then 0x0000FFFFFFFE0000#64
  else if op = 0x02#8 ∨ op = 0x03#8 then 0x00FEFFFF00000000#64
  else 0x00FFFFFFFFFFFFFF#64

/-- The table's mnemonic of a command (spec/opcode_table.json). -/
def mnemonicOf : Instr → String
  | .seed _ _ _ => "SEED"
  | .fold _ _ _ => "FOLD"
  | .txsum _ _ _ => "TXSUM"
  | .encq => "ENCQ"
  | .encr => "ENCR"
  | .rx => "RX"
  | .alloc => "ALLOC"
  | .rel => "REL"

/-- The bytes of a range whose checksum field, at its offsets 2 and 3, is taken as zero (R73, R99). -/
def rangeFieldZero (s : State) (sp : Side) (off len : Nat) : List (BitVec 8) :=
  (List.range len).map fun k => if k = 2 ∨ k = 3 then 0x00#8 else readByte s sp (off + k)

/-- The numbers the host may read and the value each reads as (R11; STATUS by R16, IDENT by R22). -/
def readTable (s : State) : List (BitVec 8 × Nat) :=
  [(0x01#8, s.res.toNat),
   (0x02#8, (if s.acc = 0xFFFF#16 then 1 else 0) + (if s.outBusy then 2 else 0)
     + (if s.logNobuf then 4 else 0) + (if s.fault then 8 else 0)),
   (0x03#8, s.fcode.toNat), (0x04#8, s.fcmd.toNat), (0x05#8, s.acc.toNat), (0x06#8, s.seq.toNat),
   (0x07#8, 1), (0x08#8, s.echoEn.toNat), (0x09#8, s.rhSet.toNat), (0x0A#8, s.logNobuf.toNat),
   (0x10#8, s.iPeer.toNat), (0x11#8, s.iLocal.toNat), (0x12#8, s.iIfid.toNat),
   (0x13#8, s.inLen.toNat), (0x14#8, s.inOff.toNat), (0x18#8, s.oPeer.toNat),
   (0x19#8, s.oLocal.toNat), (0x1A#8, s.oIfid.toNat), (0x1B#8, s.outLen.toNat),
   (0x1C#8, s.outOff.toNat)]

end Sys2Proof.Machine
end

