-- ==== Sys2Proof/Certificates/Slice0/Obligations.lean ====
section
/-! DEFINITION. The statements about PHF/ERE for the provers. -/

open Sys2Proof Sys2Proof.Machine

/-! ## Reset and the script -/

/-- R31: after reset every piece of state has its value, the OPEN ones that of the parameters, and no buffer
byte has a value the spec fixes. -/
def Obligations.ResetHasTheSpecsValues : Prop := AtReset State.reset

/-- R183: RESET puts every piece of state to its reset value, from every state, frozen ones among them; the
instance's parameters and the host's further actions stand. -/
def Obligations.ResetActionRestoresEveryPieceOfState : Prop :=
  ∀ (s : State) (rest : List HostAction), s.script = .reset :: rest →
    ∃ t, step s = .next t ∧ AtReset t ∧ t.params = s.params ∧ t.script = rest

/-- R183, R204: RESET is the only action that clears FAULT. -/
def Obligations.OnlyResetClearsFault : Prop :=
  ∀ (s t : State), step s = .next t → s.fault = true → t.fault = false →
    ∃ rest, s.script = .reset :: rest

/-- R210, R230: with no host action to come the block holds its state. -/
def Obligations.IdleBlockHoldsItsState : Prop :=
  ∀ s : State, s.script = [] → step s = .next s

/-- R8, R13: a working block whose host next writes a command word to CMD runs that command, all of it, in
the one step. -/
def Obligations.StepRunsTheDecodedCommand : Prop :=
  ∀ (s : State) (w : BitVec 64) (rest : List HostAction) (i : Instr), Working s →
    s.script = .wr 0x00#8 w :: rest → decode w = .instr i →
      step s = exec i { s with script := rest }

/-- R242: every host action, a command among them, ends in a next state. -/
def Obligations.EveryStepAnswersANextState : Prop := ∀ s : State, ∃ t, step s = .next t

/-! ## Encoding -/

/-- R67: a word with an unassigned opcode faults with F_ILLOP; one with an assigned opcode and a must-be-zero
bit set faults with F_RSVD; none executes. -/
def Obligations.WordOutsideTheTableFaults : Prop :=
  ∀ (s : State) (w : BitVec 64) (rest : List HostAction), Working s → s.script = .wr 0x00#8 w :: rest →
    (w.extractLsb' 56 8 ∉ [0x01#8, 0x02#8, 0x03#8, 0x10#8, 0x11#8, 0x12#8, 0x20#8, 0x21#8] →
      ∃ t, step s = .next t ∧ FaultEntered 0x01#8 w { s with script := rest } t) ∧
    (w.extractLsb' 56 8 ∈ [0x01#8, 0x02#8, 0x03#8, 0x10#8, 0x11#8, 0x12#8, 0x20#8, 0x21#8] →
      w &&& mustBeZero (w.extractLsb' 56 8) ≠ 0#64 →
      ∃ t, step s = .next t ∧ FaultEntered 0x02#8 w { s with script := rest } t)

/-- R62 to R66: decoding the word of a command gives the command back, with every operand. -/
def Obligations.DecodeOfEncodeIsTheCommand : Prop := ∀ i : Instr, decode (encode i) = .instr i

/-- R62 to R66: each command has one word. -/
def Obligations.EncodeOfDecodeIsTheWord : Prop :=
  ∀ (w : BitVec 64) (i : Instr), decode w = .instr i → encode i = w

/-- R65: the decoder accepts exactly the words that a row of the opcode table selects by its match and mask,
and gives that row's command. -/
def Obligations.DecoderFollowsTheOpcodeTable : Prop :=
  (∀ (w : BitVec 64) (r : OpcodeRow), r ∈ opcodeRows → r.selects w = true →
    ∃ i, decode w = .instr i ∧ mnemonicOf i = r.mnemonic) ∧
  (∀ (w : BitVec 64) (i : Instr), decode w = .instr i → wordWF w = true)

/-- R78, R79: worked words of the spec decode to the commands they stand for. -/
def Obligations.WorkedWordsDecode : Prop :=
  decode 0x013A00000000000C#64 = .instr (.seed .inbound 58#8 12#16) ∧
  decode 0x013A00000001000C#64 = .instr (.seed .outbound 58#8 12#16) ∧
  decode 0x020000000028000C#64 = .instr (.fold .inbound 40#16 12#16) ∧
  decode 0x030100000000000C#64 = .instr (.txsum .outbound 0#16 12#16) ∧
  decode 0x1000000000000000#64 = .instr .encq ∧
  decode 0x1200000000000000#64 = .instr .rx ∧
  decode 0x2100000000000000#64 = .instr .rel

/-! ## The arithmetic of the checksum -/

/-- R90: the exact sum where it fits in 16 bits, else that sum less 0xFFFF. -/
def Obligations.OnesComplementAddBringsTheCarryRound : Prop :=
  ∀ a b : BitVec 16, (ocAdd a b).toNat =
    (if a.toNat + b.toNat ≤ 0xFFFF then a.toNat + b.toNat else a.toNat + b.toNat - 0xFFFF)

/-- R91: `oc_sum` adds its words one by one; `oc_add` is commutative and associative with the two zeros as the rule says, and `oc_sum` does not
depend on the order of its words and splits over a concatenation. -/
def Obligations.OnesComplementSumIgnoresOrder : Prop :=
  (∀ a : BitVec 16, ocSum a [] = a) ∧
  (∀ (a w : BitVec 16) (ws : List (BitVec 16)), ocSum a (w :: ws) = ocSum (ocAdd a w) ws) ∧
  (∀ a b : BitVec 16, ocAdd a b = ocAdd b a) ∧
  (∀ a b c : BitVec 16, ocAdd (ocAdd a b) c = ocAdd a (ocAdd b c)) ∧
  (∀ a : BitVec 16, ocAdd a 0x0000#16 = a) ∧
  (∀ a : BitVec 16, a ≠ 0x0000#16 → ocAdd a 0xFFFF#16 = a) ∧
  ocAdd 0x0000#16 0xFFFF#16 = 0xFFFF#16 ∧
  (∀ (a : BitVec 16) (u v : List (BitVec 16)), u.Perm v → ocSum a u = ocSum a v) ∧
  (∀ (a : BitVec 16) (u v : List (BitVec 16)), ocSum (ocSum a u) v = ocSum a (u ++ v))

/-- R92: the closed form of `oc_sum`, zero only for an all-zero sum, and equal to any wide sum reduced at the
end. -/
def Obligations.OnesComplementSumClosedForm : Prop :=
  ∀ (a : BitVec 16) (ws : List (BitVec 16)),
    ocSum a ws = endAround (a.toNat + wordTotal ws) ∧
    (ocSum a ws = 0x0000#16 ↔ a = 0x0000#16 ∧ ∀ w ∈ ws, w = 0x0000#16) ∧
    (∀ n : Nat, reduceOnce^[n] (a.toNat + wordTotal ws) ≤ 0xFFFF →
      ocSum a ws = BitVec.ofNat 16 (reduceOnce^[n] (a.toNat + wordTotal ws)))

/-- R93: the words of a byte sequence, pair by pair, an unpaired last byte with a zero low byte. -/
def Obligations.WordsPairBytesHighFirst : Prop :=
  ∀ s : List (BitVec 8), (wordsOf s).length = (s.length + 1) / 2 ∧
    ∀ k, k < (s.length + 1) / 2 →
      ((wordsOf s).getD k 0#16).toNat = (s.getD (2 * k) 0#8).toNat * 256 + (s.getD (2 * k + 1) 0#8).toNat

/-- R95: the seed is the sum of the pseudo-header's twenty words, which is the sum over its 40 bytes; it is
symmetric in the addresses, and never 0x0000 with a next header that is not 0. -/
def Obligations.SeedSumsThePseudoHeader : Prop :=
  ∀ (a b : BitVec 128) (plen : BitVec 16) (nh : BitVec 8),
    seedOf a b plen nh = ocSum 0x0000#16 (wordsOf (addrBytes a) ++ wordsOf (addrBytes b) ++
      [0x0000#16, plen, 0x0000#16, BitVec.ofNat 16 nh.toNat]) ∧
    seedOf a b plen nh = foldBytes 0x0000#16 (pseudoHeader a b plen nh) ∧
    seedOf a b plen nh = endAround (addrTotal a + addrTotal b + plen.toNat + nh.toNat) ∧
    seedOf a b plen nh = seedOf b a plen nh ∧
    (nh ≠ 0#8 → seedOf a b plen nh ≠ 0x0000#16)

/-- R102: two FOLDs over an even split give what one FOLD over the whole range gives; an odd split need
not. -/
def Obligations.FoldSplitsAtEvenLengths : Prop :=
  (∀ (s s1 s2 : State) (buf : Side) (off m n : BitVec 16), Working s → Owned s buf → MsgOk s buf →
    off.toNat + m.toNat + n.toNat ≤ (lenOf s buf).toNat → m.toNat % 2 = 0 →
    exec (.fold buf off m) s = .next s1 → exec (.fold buf (off + m) n) s1 = .next s2 →
      exec (.fold buf off (m + n)) s = .next s2) ∧
  foldBytes 0#16 [0x01#8, 0x02#8, 0x03#8, 0x04#8] = 0x0406#16 ∧
  foldBytes (foldBytes 0#16 [0x01#8, 0x02#8, 0x03#8]) [0x04#8] = 0x0802#16

/-- R103: one byte of a verified range changed to another value is caught, whatever the seed; two words
swapped, or a word changed from 0x0000 to 0xFFFF, are not. -/
def Obligations.CorruptedByteIsCaught : Prop :=
  (∀ (seed : BitVec 16) (pre post : List (BitVec 8)) (b b' : BitVec 8), b' ≠ b →
    foldBytes seed (pre ++ b :: post) = 0xFFFF#16 → foldBytes seed (pre ++ b' :: post) ≠ 0xFFFF#16) ∧
  (∀ (seed x y : BitVec 16) (u v w : List (BitVec 16)),
    ocSum seed (u ++ x :: v ++ y :: w) = ocSum seed (u ++ y :: v ++ x :: w)) ∧
  (∀ (seed : BitVec 16) (u v : List (BitVec 16)), ocSum seed (u ++ 0x0000#16 :: v) = 0xFFFF#16 →
    ocSum seed (u ++ 0xFFFF#16 :: v) = 0xFFFF#16)

/-! ## SEED, FOLD, TXSUM -/

/-- R96: SEED overwrites ACC with the seed of the pair `info` names, in every state of a working block;
nothing else but RES changes. -/
def Obligations.SeedPutsTheSeedIntoAcc : Prop :=
  ∀ (info : Side) (nh : BitVec 8) (plen : BitVec 16) (s : State), Working s →
    ∃ t, exec (.seed info nh plen) s = .next t ∧
      t.acc = (match info with
        | .inbound => seedOf s.iLocal s.iPeer plen nh
        | .outbound => seedOf s.oLocal s.oPeer plen nh) ∧
      t.res = 0x00#8 ∧ { t with acc := s.acc, res := s.res } = s ∧ BytesKept s t

/-- R97: FOLD adds the range's bytes into ACC; nothing else but RES changes. An empty range leaves ACC. -/
def Obligations.FoldAddsTheRangeIntoAcc : Prop :=
  ∀ (buf : Side) (off len : BitVec 16) (s : State), Working s → Owned s buf → MsgOk s buf →
    RangeOk s buf off len →
    ∃ t, exec (.fold buf off len) s = .next t ∧
      t.acc = foldBytes s.acc ((List.range len.toNat).map fun k => readByte s buf (off.toNat + k)) ∧
      (len = 0#16 → t.acc = s.acc) ∧
      t.res = 0x00#8 ∧ { t with acc := s.acc, res := s.res } = s ∧ BytesKept s t

/-- R99: TXSUM writes the checksum of the range, its field taken as zero, big-endian at `off + 2`, leaves the
fold in ACC, and writes no other byte. For `buf` = IN this is the model's reading of the spec, R99 over the last
sentence of R41 (assumption 7, DEDUCED). -/
def Obligations.TxsumWritesTheChecksumField : Prop :=
  ∀ (buf : Side) (off len : BitVec 16) (s : State), Working s → Owned s buf → MsgOk s buf →
    RangeOk s buf off len → 4 ≤ len.toNat →
    ∃ t, exec (.txsum buf off len) s = .next t ∧
      t.acc = foldBytes s.acc (rangeFieldZero s buf off.toNat len.toNat) ∧
      (readByte t buf (off.toNat + 2)).toNat * 256 + (readByte t buf (off.toNat + 3)).toNat =
        (if t.acc = 0xFFFF#16 then 0xFFFF else 0xFFFF - t.acc.toNat) ∧
      BytesKeptOutside buf (off.toNat + 2) 2 s t ∧
      t.res = 0x00#8 ∧
      { t with acc := s.acc, res := s.res, inMem := s.inMem, outMem := s.outMem } = s

/-- R100: after TXSUM the range as now stored folds, from the same seed, to 0xFFFF. For `buf` = IN it rests on
the model's reading that TXSUM writes IN, R99 over the last sentence of R41 (assumption 7, DEDUCED). -/
def Obligations.TxsumThenFoldGivesAllOnes : Prop :=
  ∀ (buf : Side) (off len : BitVec 16) (s : State), Working s → Owned s buf → MsgOk s buf →
    RangeOk s buf off len → 4 ≤ len.toNat →
    ∃ t u, exec (.txsum buf off len) s = .next t ∧
      exec (.fold buf off len) { t with acc := s.acc } = .next u ∧ u.acc = 0xFFFF#16 ∧ all1 u = true

/-- The document's first testable property (spec/95_test_vectors.md S2), across two blocks: what a sender
finishes with SEED and TXSUM (the pseudo-command TXCSUM) passes the checksum test of a receiver that holds
the same bytes at its cursor and the mirrored addresses. -/
def Obligations.FinishedDatagramVerifiesAtTheReceiver : Prop :=
  ∀ (s r : State) (n : BitVec 16), Working s → s.outBusy = true → MsgOk s .outbound → s.outLen = n →
    4 ≤ n.toNat → Working r → MsgOk r .inbound → r.inLen.toNat = r.inOff.toNat + n.toNat →
    r.iPeer = s.oLocal → r.iLocal = s.oPeer →
    ∃ s1 s2, exec (.seed .outbound Config.nhIcmpv6 n) s = .next s1 ∧
      exec (.txsum .outbound 0#16 n) s1 = .next s2 ∧
      ((∀ k, k < n.toNat → readByte r .inbound (r.inOff.toNat + k) = readByte s2 .outbound k) →
        ∃ r', exec .rx r = .next r' ∧ r'.acc = 0xFFFF#16)

/-- R202: FOLD and TXSUM outside their conditions fault with the first check that fails, in the order
F_NOMSG, F_MSGSTATE, F_RANGE, and have no effect. -/
def Obligations.RangeCommandsFaultInOrder : Prop :=
  ∀ (buf : Side) (off len : BitVec 16) (s : State), Working s →
    (¬ Owned s buf →
      (∃ t, exec (.fold buf off len) s = .next t ∧
        FaultEntered 0x03#8 (encode (.fold buf off len)) s t) ∧
      (∃ t, exec (.txsum buf off len) s = .next t ∧
        FaultEntered 0x03#8 (encode (.txsum buf off len)) s t)) ∧
    (Owned s buf → ¬ MsgOk s buf →
      (∃ t, exec (.fold buf off len) s = .next t ∧
        FaultEntered 0x04#8 (encode (.fold buf off len)) s t) ∧
      (∃ t, exec (.txsum buf off len) s = .next t ∧
        FaultEntered 0x04#8 (encode (.txsum buf off len)) s t)) ∧
    (Owned s buf → MsgOk s buf → ¬ RangeOk s buf off len →
      ∃ t, exec (.fold buf off len) s = .next t ∧
        FaultEntered 0x05#8 (encode (.fold buf off len)) s t) ∧
    (Owned s buf → MsgOk s buf → (¬ RangeOk s buf off len ∨ len.toNat < 4) →
      ∃ t, exec (.txsum buf off len) s = .next t ∧
        FaultEntered 0x05#8 (encode (.txsum buf off len)) s t)

/-- R79, R98: VERIFY is SEED of the inbound pair and FOLD of IN, and leaves ALL1 set exactly where the range
verifies; TXCSUM is SEED of the outbound pair and TXSUM of OUT, and leaves a field that verifies. -/
def Obligations.PseudoCommandsVerifyAndFinish : Prop :=
  ∀ (s : State) (off n : BitVec 16) (rest : List HostAction), Working s →
    (MsgOk s .inbound → RangeOk s .inbound off n →
      ∃ t u, step { s with script := verifyActions off n ++ rest } = .next t ∧ step t = .next u ∧
        u.script = rest ∧
        (all1 u = true ↔ foldBytes (seedOf s.iPeer s.iLocal n 58#8)
          ((List.range n.toNat).map fun k => readByte s .inbound (off.toNat + k)) = 0xFFFF#16)) ∧
    (s.outBusy = true → MsgOk s .outbound → RangeOk s .outbound off n → 4 ≤ n.toNat →
      ∃ t u, step { s with script := txcsumActions off n ++ rest } = .next t ∧ step t = .next u ∧
        u.script = rest ∧
        foldBytes (seedOf s.oLocal s.oPeer n 58#8)
          ((List.range n.toNat).map fun k => readByte u .outbound (off.toNat + k)) = 0xFFFF#16 ∧
        BytesKeptOutside .outbound (off.toNat + 2) 2 s u)

/-! ## ENCQ -/

/-- R121, R122, R123: ENCQ prepends the echo-request header with the sequence number SEQ has, moves the old
message up by 8, grows OUT_LEN by 8, clears OUT_OFF, steps SEQ modulo 65536 and returns SEND. -/
def Obligations.EncqPrependsTheRequestHeader : Prop :=
  ∀ s : State, Working s → s.outBusy = true → MsgOk s .outbound →
    s.outLen.toNat + 8 ≤ s.params.outCap.toNat →
    ∃ t, exec .encq s = .next t ∧
      memRead t .outbound 0 4 = [0x80#8, 0x00#8, 0x00#8, 0x00#8] ∧
      memRead t .outbound 4 2 = [0x00#8, 0x01#8] ∧
      (readByte t .outbound 6).toNat * 256 + (readByte t .outbound 7).toNat = s.seq.toNat ∧
      (∀ i, i < s.outLen.toNat → readByte t .outbound (i + 8) = readByte s .outbound i) ∧
      BytesKeptOutside .outbound 0 (s.outLen.toNat + 8) s t ∧
      t.outLen.toNat = s.outLen.toNat + 8 ∧ t.outOff = 0#16 ∧
      t.seq.toNat = (s.seq.toNat + 1) % 65536 ∧ t.res = 0x10#8 ∧
      { t with outMem := s.outMem, outLen := s.outLen, outOff := s.outOff, seq := s.seq,
               res := s.res } = s

/-- R124: without headroom ENCQ returns NOROOM and changes nothing but SEQ (and RES). -/
def Obligations.EncqWithoutHeadroomOnlyStepsSeq : Prop :=
  ∀ s : State, Working s → s.outBusy = true → MsgOk s .outbound →
    s.params.outCap.toNat < s.outLen.toNat + 8 →
    ∃ t, exec .encq s = .next t ∧ t.seq.toNat = (s.seq.toNat + 1) % 65536 ∧ t.res = 0x02#8 ∧
      { t with seq := s.seq, res := s.res } = s ∧ BytesKept s t

/-- R120: ENCQ without an outbound message faults with F_NOMSG, with a malformed one F_MSGSTATE, and leaves
SEQ. -/
def Obligations.EncqFaultsWithoutAGoodMessage : Prop :=
  ∀ s : State, Working s →
    (s.outBusy = false →
      ∃ t, exec .encq s = .next t ∧ FaultEntered 0x03#8 0x1000000000000000#64 s t) ∧
    (s.outBusy = true → ¬ MsgOk s .outbound →
      ∃ t, exec .encq s = .next t ∧ FaultEntered 0x04#8 0x1000000000000000#64 s t)

/-! ## ENCR -/

/-- R143 to R147: with echo-serving enabled, OUT free and a request of 8 to OUT_CAP bytes, ENCR builds the
reply in OUT, derives its metadata, takes OUT and returns SEND; ACC, IN and the request's metadata stand. -/
def Obligations.EncrEncodesTheReply : Prop :=
  ∀ s : State, Working s → MsgOk s .inbound → s.echoEn = true → s.outBusy = false →
    8 ≤ s.inLen.toNat - s.inOff.toNat → s.inLen.toNat - s.inOff.toNat ≤ s.params.outCap.toNat →
    ∃ t, exec .encr s = .next t ∧
      memRead t .outbound 0 4 = [0x81#8, 0x00#8, 0x00#8, 0x00#8] ∧
      (∀ i, i < s.inLen.toNat - s.inOff.toNat - 4 →
        readByte t .outbound (4 + i) = readByte s .inbound (s.inOff.toNat + 4 + i)) ∧
      BytesKeptOutside .outbound 0 (s.inLen.toNat - s.inOff.toNat) s t ∧
      t.outLen.toNat = s.inLen.toNat - s.inOff.toNat ∧ t.outOff = 0#16 ∧
      t.oPeer = s.iPeer ∧ t.oIfid = s.iIfid ∧
      t.oLocal = (if s.iLocal.extractLsb' 120 8 = 0xFF#8 then 0#128 else s.iLocal) ∧
      t.outBusy = true ∧ t.res = 0x10#8 ∧
      { t with outMem := s.outMem, outLen := s.outLen, outOff := s.outOff, oPeer := s.oPeer,
               oIfid := s.oIfid, oLocal := s.oLocal, outBusy := s.outBusy, res := s.res } = s

/-- R141: with echo-serving disabled ENCR does nothing but write RES. -/
def Obligations.EncrDisabledDoesNothing : Prop :=
  ∀ s : State, Working s → MsgOk s .inbound → s.echoEn = false →
    ∃ t, exec .encr s = .next t ∧ t.res = 0x00#8 ∧ { t with res := s.res } = s ∧ BytesKept s t

/-- R142, R148, R149: with echo-serving enabled, an owned OUT sets the log bit whatever the request's length;
otherwise a request shorter than 8 bytes is dropped and one longer than OUT_CAP sets the log bit; nothing
else changes. -/
def Obligations.EncrWithoutAReplyLogsOrDrops : Prop :=
  ∀ s : State, Working s → MsgOk s .inbound → s.echoEn = true →
    (s.outBusy = true →
      ∃ t, exec .encr s = .next t ∧ t.logNobuf = true ∧ t.res = 0x00#8 ∧
        { t with logNobuf := s.logNobuf, res := s.res } = s ∧ BytesKept s t) ∧
    (s.outBusy = false → s.inLen.toNat - s.inOff.toNat < 8 →
      ∃ t, exec .encr s = .next t ∧ t.res = 0x00#8 ∧ { t with res := s.res } = s ∧ BytesKept s t) ∧
    (s.outBusy = false → 8 ≤ s.inLen.toNat - s.inOff.toNat →
      s.params.outCap.toNat < s.inLen.toNat - s.inOff.toNat →
      ∃ t, exec .encr s = .next t ∧ t.logNobuf = true ∧ t.res = 0x00#8 ∧
        { t with logNobuf := s.logNobuf, res := s.res } = s ∧ BytesKept s t)

/-- R201, R202: a malformed IN descriptor faults ENCR and RX with F_MSGSTATE before every other step, also
with echo-serving off. -/
def Obligations.MalformedInboundMessageFaults : Prop :=
  ∀ s : State, Working s → ¬ MsgOk s .inbound →
    (∃ t, exec .encr s = .next t ∧ FaultEntered 0x04#8 0x1100000000000000#64 s t) ∧
    (∃ t, exec .rx s = .next t ∧ FaultEntered 0x04#8 0x1200000000000000#64 s t)

/-! ## RX -/

/-- R157: fewer than 4 bytes from the cursor are dropped: RES is 0x00 and nothing else changes, not even
ACC. -/
def Obligations.RxDropsShortMessages : Prop :=
  ∀ s : State, Working s → MsgOk s .inbound → s.inLen.toNat - s.inOff.toNat < 4 →
    ∃ t, exec .rx s = .next t ∧ t.res = 0x00#8 ∧ { t with res := s.res } = s ∧ BytesKept s t

/-- R160, R161: RX leaves in ACC what SEED of the inbound pair and FOLD of the bytes from the cursor to the
end leave there. -/
def Obligations.RxSumsAsSeedThenFold : Prop :=
  ∀ (s : State) (n : BitVec 16), Working s → MsgOk s .inbound → s.inOff.toNat + n.toNat = s.inLen.toNat →
    4 ≤ n.toNat →
    ∃ t s1 s2, exec .rx s = .next t ∧ exec (.seed .inbound 58#8 n) s = .next s1 ∧
      exec (.fold .inbound s.inOff n) s1 = .next s2 ∧ t.acc = s2.acc

/-- R161: where that fold is not 0xFFFF the message is dropped: RES is 0x00 and nothing else but ACC
changes. -/
def Obligations.RxDropsBadChecksums : Prop :=
  ∀ s : State, Working s → MsgOk s .inbound → 4 ≤ s.inLen.toNat - s.inOff.toNat →
    inboundFold s ≠ 0xFFFF#16 →
    ∃ t, exec .rx s = .next t ∧ t.acc = inboundFold s ∧ t.res = 0x00#8 ∧
      { t with acc := s.acc, res := s.res } = s ∧ BytesKept s t

/-- R163: a verified echo request ends as ENCR ends in the same state with the fold 0xFFFF in ACC; with
echo-serving enabled, OUT free and 8 to OUT_CAP bytes it returns SEND with the reply's identifier, sequence
and payload those of the request. -/
def Obligations.RxAnswersAVerifiedEchoRequest : Prop :=
  ∀ s : State, Working s → MsgOk s .inbound → 4 ≤ s.inLen.toNat - s.inOff.toNat →
    inboundFold s = 0xFFFF#16 → readByte s .inbound s.inOff.toNat = 128#8 →
    exec .rx s = exec .encr { s with acc := 0xFFFF#16 } ∧
    (s.echoEn = true → s.outBusy = false → 8 ≤ s.inLen.toNat - s.inOff.toNat →
      s.inLen.toNat - s.inOff.toNat ≤ s.params.outCap.toNat →
      ∃ t, exec .rx s = .next t ∧ t.res = 0x10#8 ∧ t.outBusy = true ∧ t.acc = 0xFFFF#16 ∧
        t.outLen.toNat = s.inLen.toNat - s.inOff.toNat ∧ readByte t .outbound 0 = 129#8 ∧
        (∀ i, 4 ≤ i → i < s.inLen.toNat - s.inOff.toNat →
          readByte t .outbound i = readByte s .inbound (s.inOff.toNat + i)))

/-- R164: a verified echo reply is delivered exactly where echo-serving is enabled and a handler is
registered; nothing but ACC and RES changes. -/
def Obligations.RxDeliversAVerifiedEchoReply : Prop :=
  ∀ s : State, Working s → MsgOk s .inbound → 4 ≤ s.inLen.toNat - s.inOff.toNat →
    inboundFold s = 0xFFFF#16 → readByte s .inbound s.inOff.toNat = 129#8 →
    ∃ t, exec .rx s = .next t ∧ t.acc = 0xFFFF#16 ∧
      t.res = (if s.echoEn = true ∧ s.rhSet = true then 0x20#8 else 0x00#8) ∧
      { t with acc := s.acc, res := s.res } = s ∧ BytesKept s t

/-- R166: a verified destination-unreachable message moves IN_OFF on by 4, still within IN_LEN, and returns
UNREACH, whatever ECHO_EN and RH_SET are. -/
def Obligations.RxHandsOnAnUnreachable : Prop :=
  ∀ s : State, Working s → MsgOk s .inbound → 4 ≤ s.inLen.toNat - s.inOff.toNat →
    inboundFold s = 0xFFFF#16 → readByte s .inbound s.inOff.toNat = 1#8 →
    ∃ t, exec .rx s = .next t ∧ t.acc = 0xFFFF#16 ∧ t.res = 0x30#8 ∧
      t.inOff.toNat = s.inOff.toNat + 4 ∧ t.inOff.toNat ≤ t.inLen.toNat ∧
      { t with acc := s.acc, res := s.res, inOff := s.inOff } = s ∧ BytesKept s t

/-- R167: a verified message of any other type is ignored; nothing but ACC and RES changes. -/
def Obligations.RxIgnoresOtherTypes : Prop :=
  ∀ s : State, Working s → MsgOk s .inbound → 4 ≤ s.inLen.toNat - s.inOff.toNat →
    inboundFold s = 0xFFFF#16 → readByte s .inbound s.inOff.toNat ∉ [128#8, 129#8, 1#8] →
    ∃ t, exec .rx s = .next t ∧ t.acc = 0xFFFF#16 ∧ t.res = 0x00#8 ∧
      { t with acc := s.acc, res := s.res } = s ∧ BytesKept s t

/-- R27: RX and ENCR read no byte of IN before the cursor or from the length on: two states that differ only
in such bytes end alike but for those bytes. -/
def Obligations.InboundCommandsReadOnlyTheMessage : Prop :=
  ∀ (i : Instr) (s s' t t' : State), i = .rx ∨ i = .encr → { s' with inMem := s.inMem } = s →
    (∀ k, s.inOff.toNat ≤ k → k < s.inLen.toNat → readByte s' .inbound k = readByte s .inbound k) →
    exec i s = .next t → exec i s' = .next t' →
      { t' with inMem := t.inMem } = t ∧ t'.inMem = s'.inMem ∧ t.inMem = s.inMem

/-! ## ALLOC, REL -/

/-- R175: ALLOC takes a free outbound buffer with an empty message; an owned one gives NOBUFS and nothing
changes. -/
def Obligations.AllocTakesTheOutboundBuffer : Prop :=
  ∀ s : State, Working s →
    (s.outBusy = false →
      ∃ t, exec .alloc s = .next t ∧ t.outBusy = true ∧ t.outLen = 0#16 ∧ t.outOff = 0#16 ∧
        t.res = 0x00#8 ∧
        { t with outBusy := s.outBusy, outLen := s.outLen, outOff := s.outOff, res := s.res } = s ∧
        BytesKept s t) ∧
    (s.outBusy = true →
      ∃ t, exec .alloc s = .next t ∧ t.res = 0x01#8 ∧ { t with res := s.res } = s ∧ BytesKept s t)

/-- R176: REL releases an owned outbound buffer and keeps its contents; without one it faults with
F_NOMSG. -/
def Obligations.RelReleasesTheOutboundBuffer : Prop :=
  ∀ s : State, Working s →
    (s.outBusy = true →
      ∃ t, exec .rel s = .next t ∧ t.outBusy = false ∧ t.res = 0x00#8 ∧
        { t with outBusy := s.outBusy, res := s.res } = s ∧ BytesKept s t) ∧
    (s.outBusy = false →
      ∃ t, exec .rel s = .next t ∧ FaultEntered 0x03#8 0x2100000000000000#64 s t)

/-! ## Faults over all commands -/

/-- R203: a command that faults has no effect but the fault record, which holds its own word. -/
def Obligations.CommandFaultsArePrecise : Prop :=
  ∀ (i : Instr) (s t : State), Working s → exec i s = .next t → t.fault = true →
    FaultEntered t.fcode (encode i) s t ∧ t.fcode ∈ [0x03#8, 0x04#8, 0x05#8]

/-- R204, R184: while FAULT is 1 a write to CMD, to a register or to a buffer does nothing; only the action
itself is used up. -/
def Obligations.FrozenBlockIgnoresWrites : Prop :=
  ∀ (s : State) (a : HostAction) (rest : List HostAction), s.fault = true → s.script = a :: rest →
    ((∃ n v, a = .wr n v) ∨ (∃ sp i v, a = .wrb sp i v)) → step s = .next { s with script := rest }

/-- R75: the results each command can return. -/
def Obligations.CommandsReturnTheirOwnResults : Prop :=
  ∀ (i : Instr) (s t : State), Working s → exec i s = .next t → Working t →
    (t.res = 0x00#8 ∨ (t.res = 0x01#8 ∧ i = .alloc) ∨ (t.res = 0x02#8 ∧ i = .encq) ∨
      (t.res = 0x10#8 ∧ (i = .encq ∨ i = .encr ∨ i = .rx)) ∨ (t.res = 0x20#8 ∧ i = .rx) ∨
      (t.res = 0x30#8 ∧ i = .rx))

/-! ## Host accesses -/

/-- R177: a working block's register stores what the host writes to it and nothing else changes, for each of
the fourteen registers the host may write. -/
def Obligations.HostWriteStoresTheValue : Prop :=
  ∀ (s : State) (rest : List HostAction), Working s →
    (∀ v : BitVec 16, step { s with script := .wr 0x05#8 v :: rest }
      = .next { s with script := rest, acc := v }) ∧
    (∀ b : Bool, step { s with script := .wr 0x08#8 (BitVec.ofBool b) :: rest }
      = .next { s with script := rest, echoEn := b }) ∧
    (∀ b : Bool, step { s with script := .wr 0x09#8 (BitVec.ofBool b) :: rest }
      = .next { s with script := rest, rhSet := b }) ∧
    (∀ b : Bool, step { s with script := .wr 0x0A#8 (BitVec.ofBool b) :: rest }
      = .next { s with script := rest, logNobuf := b }) ∧
    (∀ v : BitVec 128, step { s with script := .wr 0x10#8 v :: rest }
      = .next { s with script := rest, iPeer := v }) ∧
    (∀ v : BitVec 128, step { s with script := .wr 0x11#8 v :: rest }
      = .next { s with script := rest, iLocal := v }) ∧
    (∀ v : BitVec 32, step { s with script := .wr 0x12#8 v :: rest }
      = .next { s with script := rest, iIfid := v }) ∧
    (∀ v : BitVec 16, step { s with script := .wr 0x13#8 v :: rest }
      = .next { s with script := rest, inLen := v }) ∧
    (∀ v : BitVec 16, step { s with script := .wr 0x14#8 v :: rest }
      = .next { s with script := rest, inOff := v }) ∧
    (∀ v : BitVec 128, step { s with script := .wr 0x18#8 v :: rest }
      = .next { s with script := rest, oPeer := v }) ∧
    (∀ v : BitVec 128, step { s with script := .wr 0x19#8 v :: rest }
      = .next { s with script := rest, oLocal := v }) ∧
    (∀ v : BitVec 32, step { s with script := .wr 0x1A#8 v :: rest }
      = .next { s with script := rest, oIfid := v }) ∧
    (∀ v : BitVec 16, step { s with script := .wr 0x1B#8 v :: rest }
      = .next { s with script := rest, outLen := v }) ∧
    (∀ v : BitVec 16, step { s with script := .wr 0x1C#8 v :: rest }
      = .next { s with script := rest, outOff := v })

/-- R177: a write of a read-only or unassigned register number faults with F_REGACC. -/
def Obligations.HostWriteOfOtherRegistersFaults : Prop :=
  ∀ (s : State) (n : BitVec 8) (v : BitVec (portWidth n)) (rest : List HostAction), Working s →
    n ∉ [0x00#8, 0x05#8, 0x08#8, 0x09#8, 0x0A#8, 0x10#8, 0x11#8, 0x12#8, 0x13#8, 0x14#8, 0x18#8, 0x19#8,
         0x1A#8, 0x1B#8, 0x1C#8] →
    ∃ t, step { s with script := .wr n v :: rest } = .next t ∧
      FaultEntered 0x06#8 (n.setWidth 64) { s with script := rest } t

/-- R178, R16, R22: a read returns the register's value, frozen or not, IDENT reads 1 and STATUS is its view;
nothing else changes. -/
def Obligations.HostReadReturnsTheRegister : Prop :=
  ∀ (s : State) (rest : List HostAction) (n : BitVec 8) (v : Nat),
    (n, v) ∈ readTable s →
    step { s with script := .rd n :: rest } =
      .next { s with script := rest, readout := some (BitVec.ofNat 128 v) }

/-- R178: a read of CMD or of an unassigned number faults with F_REGACC, or returns zero where the block is
frozen. -/
def Obligations.HostReadOfOtherNumbersFaults : Prop :=
  ∀ (s : State) (n : BitVec 8) (rest : List HostAction),
    n ∉ [0x01#8, 0x02#8, 0x03#8, 0x04#8, 0x05#8, 0x06#8, 0x07#8, 0x08#8, 0x09#8, 0x0A#8, 0x10#8, 0x11#8,
         0x12#8, 0x13#8, 0x14#8, 0x18#8, 0x19#8, 0x1A#8, 0x1B#8, 0x1C#8] →
    (Working s → ∃ t, step { s with script := .rd n :: rest } = .next t ∧
      FaultEntered 0x06#8 (n.setWidth 64) { s with script := rest, readout := t.readout } t) ∧
    (s.fault = true → step { s with script := .rd n :: rest } =
      .next { s with script := rest, readout := some 0#128 })

/-- R179: below the capacity WRB stores its byte and no other, and RDB returns the byte; neither looks at the
length, the cursor or OUT_BUSY. -/
def Obligations.BufferPortReadsAndWritesOneByte : Prop :=
  ∀ (s : State) (sp : Side) (i : BitVec 16) (rest : List HostAction),
    i.toNat < (capOf s sp).toNat →
    (∀ v : BitVec 8, Working s → ∃ t, step { s with script := .wrb sp i v :: rest } = .next t ∧
      readByte t sp i.toNat = v ∧ BytesKeptOutside sp i.toNat 1 s t ∧
      { t with inMem := s.inMem, outMem := s.outMem } = { s with script := rest }) ∧
    step { s with script := .rdb sp i :: rest } =
      .next { s with script := rest, readout := some ((readByte s sp i.toNat).setWidth 128) }

/-- R179: at or beyond the capacity a working block faults with F_BUFACC and records the space in bit 16 and
the index below it; a frozen one returns zero to RDB. -/
def Obligations.BufferPortBeyondTheCapacityFaults : Prop :=
  ∀ (s : State) (sp : Side) (i : BitVec 16) (rest : List HostAction),
    (capOf s sp).toNat ≤ i.toNat →
    (∀ v : BitVec 8, Working s → ∃ t, step { s with script := .wrb sp i v :: rest } = .next t ∧
      FaultEntered 0x07#8
        (BitVec.ofNat 64 ((match sp with | .inbound => 0 | .outbound => 65536) + i.toNat))
        { s with script := rest } t) ∧
    (Working s → ∃ t, step { s with script := .rdb sp i :: rest } = .next t ∧
      FaultEntered 0x07#8
        (BitVec.ofNat 64 ((match sp with | .inbound => 0 | .outbound => 65536) + i.toNat))
        { s with script := rest, readout := t.readout } t) ∧
    (s.fault = true → step { s with script := .rdb sp i :: rest } =
      .next { s with script := rest, readout := some 0#128 })

/-! ## Whole-machine rules -/

/-- The invariant holds after reset. -/
def Obligations.ResetMeetsTheInvariant : Prop := BlockInv State.reset

/-- Every step keeps the invariant: the canonical form and the capacity of both buffers, the seven values of
RES (R75), the fault record (R20, R204), and the ownership a result implies (R51). -/
def Obligations.EveryStepKeepsTheInvariant : Prop :=
  ∀ s t : State, BlockInv s → step s = .next t → BlockInv t

/-- R21: only an ENCQ that does not fault changes SEQ, by one modulo 65536; RESET apart. -/
def Obligations.OnlyEncqChangesSeq : Prop :=
  ∀ s t : State, step s = .next t →
    t.seq = s.seq ∨ (∃ rest, s.script = .reset :: rest) ∨
    ((∃ rest, s.script = .wr 0x00#8 (0x1000000000000000#64) :: rest) ∧ Working s ∧ Working t ∧
      t.seq.toNat = (s.seq.toNat + 1) % 65536)

/-- R18: OUT_BUSY is set only by ALLOC and by a reply encoded by ENCR or RX, and cleared only by REL and
RESET; no other host action changes it. -/
def Obligations.OutBusyHasFourMovers : Prop :=
  ∀ s t : State, step s = .next t → t.outBusy ≠ s.outBusy →
    (t.outBusy = true ∧ ∃ rest, s.script = .wr 0x00#8 (0x2000000000000000#64) :: rest) ∨
    (t.outBusy = true ∧ t.res = 0x10#8 ∧
      ∃ rest, s.script = .wr 0x00#8 (0x1100000000000000#64) :: rest ∨
        s.script = .wr 0x00#8 (0x1200000000000000#64) :: rest) ∨
    (t.outBusy = false ∧ ∃ rest, s.script = .wr 0x00#8 (0x2100000000000000#64) :: rest) ∨
    (t.outBusy = false ∧ ∃ rest, s.script = .reset :: rest)

/-- R19: no command clears LOG_NOBUF, and only ENCR and RX set it, without a reply. -/
def Obligations.CommandsOnlySetTheLogBit : Prop :=
  ∀ (i : Instr) (s t : State), exec i s = .next t → t.logNobuf ≠ s.logNobuf →
    t.logNobuf = true ∧ (i = .encr ∨ i = .rx) ∧ t.res = 0x00#8 ∧ t.outBusy = s.outBusy

/-- R11, R23 to R27: no command writes the registers whose column "written by commands" is empty, none
writes IN_OFF but RX, and none touches what the model adds to the block's state. -/
def Obligations.CommandsLeaveTheHostsRegisters : Prop :=
  ∀ (i : Instr) (s t : State), exec i s = .next t →
    t.iPeer = s.iPeer ∧ t.iLocal = s.iLocal ∧ t.iIfid = s.iIfid ∧ t.inLen = s.inLen ∧
    t.echoEn = s.echoEn ∧ t.rhSet = s.rhSet ∧ (i ≠ .rx → t.inOff = s.inOff) ∧
    t.params = s.params ∧ t.epoch = s.epoch ∧ t.readout = s.readout ∧ t.script = s.script

/-- R41, R99: no command writes a byte of IN, but for a TXSUM that names IN. -/
def Obligations.OnlyTxsumOfInWritesIn : Prop :=
  ∀ (i : Instr) (s t : State), exec i s = .next t → (∀ off len, i ≠ .txsum .inbound off len) →
    t.inMem = s.inMem ∧ ∀ k, readByte t .inbound k = readByte s .inbound k

/-- R30, R4: no step changes the instance's parameters. -/
def Obligations.StepsKeepTheParameters : Prop :=
  ∀ s t : State, step s = .next t → t.params = s.params

/-- After a command that returns SEND no byte below OUT_LEN is one that nothing has written since reset,
whether this command or an earlier action wrote it (from R56, R123, R145). That a byte has been written is
the model's notion: its address has a cell in OUT's memory (assumption 3, DESIGN CHOICE). -/
def Obligations.EncodersLeaveNoUnwrittenByte : Prop :=
  ∀ (i : Instr) (s t : State), Working s → exec i s = .next t → t.res = 0x10#8 →
    ∀ k, k < t.outLen.toNat → lookupCell k t.outMem.cells ≠ none
end

