-- ==== Sys2Proof/Laws/Codec.lean ====
section
/-! SUPPORT. The command word as arithmetic: an append is a sum, a field is a quotient and a remainder; the
fields of an encoded word. -/

namespace Sys2Proof

theorem toNat_append_eq {m n : Nat} (x : BitVec m) (y : BitVec n) :
    (x ++ y).toNat = x.toNat * 2 ^ n + y.toNat := by
  rw [BitVec.toNat_append, ← Nat.shiftLeft_add_eq_or_of_lt y.isLt, Nat.shiftLeft_eq]

theorem toNat_extract_eq {m : Nat} (x : BitVec m) (k n : Nat) :
    (x.extractLsb' k n).toNat = x.toNat / 2 ^ k % 2 ^ n := by
  rw [BitVec.extractLsb'_toNat, Nat.shiftRight_eq_div_pow]

@[simp] theorem sideOfBit_sideBit (b : Side) : sideOfBit (sideBit b) = b := by cases b <;> rfl

@[simp] theorem sideBit_sideOfBit (b : BitVec 1) : sideBit (sideOfBit b) = b := by
  unfold sideOfBit
  split
  · simp_all [sideBit]
  · have : b.toNat = 1 := by
      have h1 := b.isLt
      have h2 : b.toNat ≠ 0 := fun h => ‹¬ b = 0#1› (BitVec.eq_of_toNat_eq (by simpa using h))
      omega
    exact BitVec.eq_of_toNat_eq (by simp [sideBit, this])

/-- The value of a word of format S (R63). -/
theorem toNat_encode_seed (info : Side) (nh : BitVec 8) (plen : BitVec 16) :
    (encode (.seed info nh plen)).toNat =
      0x01 * 2 ^ 56 + nh.toNat * 2 ^ 48 + (sideBit info).toNat * 2 ^ 16 + plen.toNat := by
  simp only [encode, toNat_append_eq, BitVec.toNat_ofNat]
  omega

/-- The value of a word of format R (R64). -/
theorem toNat_encodeR (op : BitVec 8) (buf : Side) (off len : BitVec 16) :
    (encodeR op buf off len).toNat =
      op.toNat * 2 ^ 56 + (sideBit buf).toNat * 2 ^ 48 + off.toNat * 2 ^ 16 + len.toNat := by
  simp only [encodeR, toNat_append_eq, BitVec.toNat_ofNat]
  omega

/-- The value of a word of format Z (R62). -/
theorem toNat_encodeZ (op : BitVec 8) : (encodeZ op).toNat = op.toNat * 2 ^ 56 := by
  simp only [encodeZ, toNat_append_eq, BitVec.toNat_ofNat]
  omega

/-- A field of a word where a mask has ones is that field of the masked word. -/
theorem extract_of_and {w m p : BitVec 64} {k n : Nat} (h : w &&& m = p)
    (hm : m.extractLsb' k n = BitVec.allOnes n) : w.extractLsb' k n = p.extractLsb' k n := by
  rw [← h, BitVec.extractLsb'_and, hm, BitVec.and_allOnes]

/-- Two words are equal where their fields are: the fields of R61 cut at the must-be-zero bits of R63 and
R64. -/
theorem word_ext {w v : BitVec 64} (h0 : w.extractLsb' 56 8 = v.extractLsb' 56 8)
    (h1 : w.extractLsb' 49 7 = v.extractLsb' 49 7) (h2 : w.extractLsb' 48 1 = v.extractLsb' 48 1)
    (h3 : w.extractLsb' 32 16 = v.extractLsb' 32 16) (h4 : w.extractLsb' 17 15 = v.extractLsb' 17 15)
    (h5 : w.extractLsb' 16 1 = v.extractLsb' 16 1) (h6 : w.extractLsb' 0 16 = v.extractLsb' 0 16) : w = v := by
  apply BitVec.eq_of_toNat_eq
  have a := congrArg BitVec.toNat h0
  have b := congrArg BitVec.toNat h1
  have c := congrArg BitVec.toNat h2
  have d := congrArg BitVec.toNat h3
  have e := congrArg BitVec.toNat h4
  have f := congrArg BitVec.toNat h5
  have g := congrArg BitVec.toNat h6
  simp only [toNat_extract_eq] at a b c d e f g
  have := w.isLt
  have := v.isLt
  omega

end Sys2Proof
end

