-- ==== Sys2Proof/Laws/State.lean ====
section
/-! SUPPORT. One lemma per field of State and per shared update of it: `finish`, `raiseFault`, `memWrite`,
`resetAction`. -/

namespace Sys2Proof.Machine

section

variable (s : State) (e : Err) (a : Act) (c : Cause) (r : BitVec 64)
  (sp : Side) (k : Nat) (bs : List (BitVec 8))

@[simp] theorem finish_acc : (finish e a s).acc = s.acc := rfl
@[simp] theorem finish_iPeer : (finish e a s).iPeer = s.iPeer := rfl
@[simp] theorem finish_iLocal : (finish e a s).iLocal = s.iLocal := rfl
@[simp] theorem finish_iIfid : (finish e a s).iIfid = s.iIfid := rfl
@[simp] theorem finish_oPeer : (finish e a s).oPeer = s.oPeer := rfl
@[simp] theorem finish_oLocal : (finish e a s).oLocal = s.oLocal := rfl
@[simp] theorem finish_oIfid : (finish e a s).oIfid = s.oIfid := rfl
@[simp] theorem finish_inLen : (finish e a s).inLen = s.inLen := rfl
@[simp] theorem finish_inOff : (finish e a s).inOff = s.inOff := rfl
@[simp] theorem finish_outLen : (finish e a s).outLen = s.outLen := rfl
@[simp] theorem finish_outOff : (finish e a s).outOff = s.outOff := rfl
@[simp] theorem finish_seq : (finish e a s).seq = s.seq := rfl
@[simp] theorem finish_echoEn : (finish e a s).echoEn = s.echoEn := rfl
@[simp] theorem finish_rhSet : (finish e a s).rhSet = s.rhSet := rfl
@[simp] theorem finish_res : (finish e a s).res = resByte e a := rfl
@[simp] theorem finish_outBusy : (finish e a s).outBusy = s.outBusy := rfl
@[simp] theorem finish_logNobuf : (finish e a s).logNobuf = s.logNobuf := rfl
@[simp] theorem finish_fault : (finish e a s).fault = s.fault := rfl
@[simp] theorem finish_fcode : (finish e a s).fcode = s.fcode := rfl
@[simp] theorem finish_fcmd : (finish e a s).fcmd = s.fcmd := rfl
@[simp] theorem finish_inMem : (finish e a s).inMem = s.inMem := rfl
@[simp] theorem finish_outMem : (finish e a s).outMem = s.outMem := rfl
@[simp] theorem finish_params : (finish e a s).params = s.params := rfl
@[simp] theorem finish_epoch : (finish e a s).epoch = s.epoch := rfl
@[simp] theorem finish_readout : (finish e a s).readout = s.readout := rfl
@[simp] theorem finish_script : (finish e a s).script = s.script := rfl

@[simp] theorem raiseFault_acc : (raiseFault c r s).acc = s.acc := rfl
@[simp] theorem raiseFault_iPeer : (raiseFault c r s).iPeer = s.iPeer := rfl
@[simp] theorem raiseFault_iLocal : (raiseFault c r s).iLocal = s.iLocal := rfl
@[simp] theorem raiseFault_iIfid : (raiseFault c r s).iIfid = s.iIfid := rfl
@[simp] theorem raiseFault_oPeer : (raiseFault c r s).oPeer = s.oPeer := rfl
@[simp] theorem raiseFault_oLocal : (raiseFault c r s).oLocal = s.oLocal := rfl
@[simp] theorem raiseFault_oIfid : (raiseFault c r s).oIfid = s.oIfid := rfl
@[simp] theorem raiseFault_inLen : (raiseFault c r s).inLen = s.inLen := rfl
@[simp] theorem raiseFault_inOff : (raiseFault c r s).inOff = s.inOff := rfl
@[simp] theorem raiseFault_outLen : (raiseFault c r s).outLen = s.outLen := rfl
@[simp] theorem raiseFault_outOff : (raiseFault c r s).outOff = s.outOff := rfl
@[simp] theorem raiseFault_seq : (raiseFault c r s).seq = s.seq := rfl
@[simp] theorem raiseFault_echoEn : (raiseFault c r s).echoEn = s.echoEn := rfl
@[simp] theorem raiseFault_rhSet : (raiseFault c r s).rhSet = s.rhSet := rfl
@[simp] theorem raiseFault_res : (raiseFault c r s).res = resByte .fault .none := rfl
@[simp] theorem raiseFault_outBusy : (raiseFault c r s).outBusy = s.outBusy := rfl
@[simp] theorem raiseFault_logNobuf : (raiseFault c r s).logNobuf = s.logNobuf := rfl
@[simp] theorem raiseFault_fault : (raiseFault c r s).fault = true := rfl
@[simp] theorem raiseFault_fcode : (raiseFault c r s).fcode = causeCode c := rfl
@[simp] theorem raiseFault_fcmd : (raiseFault c r s).fcmd = r := rfl
@[simp] theorem raiseFault_inMem : (raiseFault c r s).inMem = s.inMem := rfl
@[simp] theorem raiseFault_outMem : (raiseFault c r s).outMem = s.outMem := rfl
@[simp] theorem raiseFault_params : (raiseFault c r s).params = s.params := rfl
@[simp] theorem raiseFault_epoch : (raiseFault c r s).epoch = s.epoch := rfl
@[simp] theorem raiseFault_readout : (raiseFault c r s).readout = s.readout := rfl
@[simp] theorem raiseFault_script : (raiseFault c r s).script = s.script := rfl

@[simp] theorem memWrite_acc : (memWrite s sp k bs).acc = s.acc := by cases sp <;> rfl
@[simp] theorem memWrite_iPeer : (memWrite s sp k bs).iPeer = s.iPeer := by cases sp <;> rfl
@[simp] theorem memWrite_iLocal : (memWrite s sp k bs).iLocal = s.iLocal := by cases sp <;> rfl
@[simp] theorem memWrite_iIfid : (memWrite s sp k bs).iIfid = s.iIfid := by cases sp <;> rfl
@[simp] theorem memWrite_oPeer : (memWrite s sp k bs).oPeer = s.oPeer := by cases sp <;> rfl
@[simp] theorem memWrite_oLocal : (memWrite s sp k bs).oLocal = s.oLocal := by cases sp <;> rfl
@[simp] theorem memWrite_oIfid : (memWrite s sp k bs).oIfid = s.oIfid := by cases sp <;> rfl
@[simp] theorem memWrite_inLen : (memWrite s sp k bs).inLen = s.inLen := by cases sp <;> rfl
@[simp] theorem memWrite_inOff : (memWrite s sp k bs).inOff = s.inOff := by cases sp <;> rfl
@[simp] theorem memWrite_outLen : (memWrite s sp k bs).outLen = s.outLen := by cases sp <;> rfl
@[simp] theorem memWrite_outOff : (memWrite s sp k bs).outOff = s.outOff := by cases sp <;> rfl
@[simp] theorem memWrite_seq : (memWrite s sp k bs).seq = s.seq := by cases sp <;> rfl
@[simp] theorem memWrite_echoEn : (memWrite s sp k bs).echoEn = s.echoEn := by cases sp <;> rfl
@[simp] theorem memWrite_rhSet : (memWrite s sp k bs).rhSet = s.rhSet := by cases sp <;> rfl
@[simp] theorem memWrite_res : (memWrite s sp k bs).res = s.res := by cases sp <;> rfl
@[simp] theorem memWrite_outBusy : (memWrite s sp k bs).outBusy = s.outBusy := by cases sp <;> rfl
@[simp] theorem memWrite_logNobuf : (memWrite s sp k bs).logNobuf = s.logNobuf := by cases sp <;> rfl
@[simp] theorem memWrite_fault : (memWrite s sp k bs).fault = s.fault := by cases sp <;> rfl
@[simp] theorem memWrite_fcode : (memWrite s sp k bs).fcode = s.fcode := by cases sp <;> rfl
@[simp] theorem memWrite_fcmd : (memWrite s sp k bs).fcmd = s.fcmd := by cases sp <;> rfl
@[simp] theorem memWrite_params : (memWrite s sp k bs).params = s.params := by cases sp <;> rfl
@[simp] theorem memWrite_epoch : (memWrite s sp k bs).epoch = s.epoch := by cases sp <;> rfl
@[simp] theorem memWrite_readout : (memWrite s sp k bs).readout = s.readout := by cases sp <;> rfl
@[simp] theorem memWrite_script : (memWrite s sp k bs).script = s.script := by cases sp <;> rfl
@[simp] theorem memWrite_inbound_inMem :
    (memWrite s .inbound k bs).inMem = ⟨insertCells k bs s.inMem.cells⟩ := rfl
@[simp] theorem memWrite_inbound_outMem : (memWrite s .inbound k bs).outMem = s.outMem := rfl
@[simp] theorem memWrite_outbound_outMem :
    (memWrite s .outbound k bs).outMem = ⟨insertCells k bs s.outMem.cells⟩ := rfl
@[simp] theorem memWrite_outbound_inMem : (memWrite s .outbound k bs).inMem = s.inMem := rfl

@[simp] theorem resetAction_acc : (resetAction s).acc = 0#16 := rfl
@[simp] theorem resetAction_iPeer : (resetAction s).iPeer = 0#128 := rfl
@[simp] theorem resetAction_iLocal : (resetAction s).iLocal = 0#128 := rfl
@[simp] theorem resetAction_iIfid : (resetAction s).iIfid = 0#32 := rfl
@[simp] theorem resetAction_oPeer : (resetAction s).oPeer = 0#128 := rfl
@[simp] theorem resetAction_oLocal : (resetAction s).oLocal = 0#128 := rfl
@[simp] theorem resetAction_oIfid : (resetAction s).oIfid = 0#32 := rfl
@[simp] theorem resetAction_inLen : (resetAction s).inLen = 0#16 := rfl
@[simp] theorem resetAction_inOff : (resetAction s).inOff = 0#16 := rfl
@[simp] theorem resetAction_outLen : (resetAction s).outLen = 0#16 := rfl
@[simp] theorem resetAction_outOff : (resetAction s).outOff = 0#16 := rfl
@[simp] theorem resetAction_seq : (resetAction s).seq = s.params.seqReset := rfl
@[simp] theorem resetAction_echoEn : (resetAction s).echoEn = s.params.echoEnReset := rfl
@[simp] theorem resetAction_rhSet : (resetAction s).rhSet = false := rfl
@[simp] theorem resetAction_res : (resetAction s).res = 0x00#8 := rfl
@[simp] theorem resetAction_outBusy : (resetAction s).outBusy = false := rfl
@[simp] theorem resetAction_logNobuf : (resetAction s).logNobuf = false := rfl
@[simp] theorem resetAction_fault : (resetAction s).fault = false := rfl
@[simp] theorem resetAction_fcode : (resetAction s).fcode = 0x00#8 := rfl
@[simp] theorem resetAction_fcmd : (resetAction s).fcmd = 0#64 := rfl
@[simp] theorem resetAction_inMem : (resetAction s).inMem = ⟨[]⟩ := rfl
@[simp] theorem resetAction_outMem : (resetAction s).outMem = ⟨[]⟩ := rfl
@[simp] theorem resetAction_params : (resetAction s).params = s.params := rfl
@[simp] theorem resetAction_epoch : (resetAction s).epoch = s.epoch + 1 := rfl
@[simp] theorem resetAction_readout : (resetAction s).readout = none := rfl
@[simp] theorem resetAction_script : (resetAction s).script = s.script := rfl

end

end Sys2Proof.Machine
end

