-- ==== Sys2Proof/Laws/Memory.lean ====
section
/-! SUPPORT. The laws of the byte memories: a read after a write, the canonical form, the capacity bound. -/

namespace Sys2Proof.Machine

@[simp] theorem lookupCell_nil (k : Nat) : lookupCell k [] = none := rfl

/-- A byte written reads as written; every other address reads as before. -/
theorem lookupCell_insertCell (k a : Nat) (v : BitVec 8) (cs : List Host.Cell) :
    lookupCell k (insertCell a v cs) = if k = a then some v else lookupCell k cs := by
  induction cs with
  | nil => simp [insertCell, lookupCell]
  | cons c cs ih =>
    obtain ⟨b, w⟩ := c
    simp only [insertCell]
    split
    · simp [lookupCell]
    · split
      · rename_i hab
        subst hab
        by_cases h : k = a <;> simp [lookupCell, h]
      · simp only [lookupCell, ih]
        by_cases hb : k = b
        · have : ¬ k = a := by omega
          simp [hb]; omega
        · simp [hb]

/-- A byte sequence written reads as written; every address outside it reads as before. -/
theorem lookupCell_insertCells (k a : Nat) (vs : List (BitVec 8)) (cs : List Host.Cell) :
    lookupCell k (insertCells a vs cs) =
      if a ≤ k ∧ k < a + vs.length then vs[k - a]? else lookupCell k cs := by
  induction vs generalizing a cs with
  | nil => simp [insertCells]
  | cons v vs ih =>
    simp only [insertCells, ih, lookupCell_insertCell, List.length_cons]
    rcases Nat.lt_trichotomy k a with h | h | h
    · simp [show ¬ (a + 1 ≤ k) by omega, show ¬ (a ≤ k) by omega, show ¬ k = a by omega]
    · subst h; simp
    · by_cases h2 : k < a + 1 + vs.length
      · obtain ⟨d, rfl⟩ : ∃ d, k = a + 1 + d := ⟨k - (a + 1), by omega⟩
        simp [show a + 1 + d < a + 1 + vs.length by omega, show a + 1 + d < a + (vs.length + 1) by omega,
          show a ≤ a + 1 + d by omega, show a + 1 + d - a = d + 1 by omega,
          show a + 1 + d - (a + 1) = d by omega]
      · simp [h2, show ¬ k < a + (vs.length + 1) by omega, show ¬ k = a by omega]

theorem risingFrom_mono {a b : Nat} (h : a ≤ b) {cs : List Host.Cell} (hc : risingFrom b cs = true) :
    risingFrom a cs = true := by
  cases cs with
  | nil => rfl
  | cons c cs =>
    obtain ⟨x, v⟩ := c
    simp only [risingFrom, Bool.and_eq_true, decide_eq_true_eq] at hc ⊢
    exact ⟨by omega, hc.2⟩

theorem risingFrom_insertCell {l a : Nat} {v : BitVec 8} {cs : List Host.Cell} (h : l < a)
    (hc : risingFrom l cs = true) : risingFrom l (insertCell a v cs) = true := by
  induction cs generalizing l with
  | nil => simp [insertCell, risingFrom, h]
  | cons c cs ih =>
    obtain ⟨b, w⟩ := c
    simp only [risingFrom, Bool.and_eq_true, decide_eq_true_eq] at hc
    simp only [insertCell]
    split
    · simp only [risingFrom, Bool.and_eq_true, decide_eq_true_eq]
      exact ⟨h, by assumption, hc.2⟩
    · split
      · subst_vars
        simp only [risingFrom, Bool.and_eq_true, decide_eq_true_eq]
        exact ⟨h, hc.2⟩
      · simp only [risingFrom, Bool.and_eq_true, decide_eq_true_eq]
        exact ⟨hc.1, ih (by omega) hc.2⟩

/-- Writing a byte keeps the canonical form. -/
theorem wf_insertCell {a : Nat} {v : BitVec 8} {cs : List Host.Cell}
    (h : Memory.wf ⟨cs⟩ = true) : Memory.wf ⟨insertCell a v cs⟩ = true := by
  cases cs with
  | nil => rfl
  | cons c cs =>
    obtain ⟨b, w⟩ := c
    simp only [Memory.wf] at h
    simp only [insertCell]
    split
    · simp [Memory.wf, risingFrom, *]
    · split
      · subst_vars; exact h
      · exact risingFrom_insertCell (by omega) h

/-- Writing a byte sequence keeps the canonical form. -/
theorem wf_insertCells {a : Nat} {vs : List (BitVec 8)} {cs : List Host.Cell}
    (h : Memory.wf ⟨cs⟩ = true) : Memory.wf ⟨insertCells a vs cs⟩ = true := by
  induction vs generalizing a cs with
  | nil => exact h
  | cons v vs ih => exact ih (wf_insertCell h)

theorem below_insertCell {cap a : Nat} {v : BitVec 8} {cs : List Host.Cell} (ha : a < cap)
    (h : Memory.below cap ⟨cs⟩ = true) : Memory.below cap ⟨insertCell a v cs⟩ = true := by
  induction cs with
  | nil => simp [insertCell, Memory.below, ha]
  | cons c cs ih =>
    obtain ⟨b, w⟩ := c
    simp only [Memory.below, List.all_cons, Bool.and_eq_true, decide_eq_true_eq] at h ih ⊢
    simp only [insertCell]
    split
    · simp only [List.all_cons, Bool.and_eq_true, decide_eq_true_eq]
      exact ⟨ha, h.1, h.2⟩
    · split
      · simp only [List.all_cons, Bool.and_eq_true, decide_eq_true_eq]
        exact ⟨ha, h.2⟩
      · simp only [List.all_cons, Bool.and_eq_true, decide_eq_true_eq]
        exact ⟨h.1, ih h.2⟩

/-- Writing a byte sequence below the capacity keeps the memory below it. -/
theorem below_insertCells {cap a : Nat} {vs : List (BitVec 8)} {cs : List Host.Cell}
    (ha : a + vs.length ≤ cap) (h : Memory.below cap ⟨cs⟩ = true) :
    Memory.below cap ⟨insertCells a vs cs⟩ = true := by
  induction vs generalizing a cs with
  | nil => exact h
  | cons v vs ih =>
    simp only [List.length_cons] at ha
    exact ih (by omega) (below_insertCell (by omega) h)

/-- Every write of the block keeps both memories' canonical form. -/
theorem memWrite_wf {s : State} (sp : Side) (a : Nat) (bs : List (BitVec 8))
    (hi : s.inMem.wf = true) (ho : s.outMem.wf = true) :
    (memWrite s sp a bs).inMem.wf = true ∧ (memWrite s sp a bs).outMem.wf = true := by
  cases sp
  · exact ⟨wf_insertCells hi, ho⟩
  · exact ⟨hi, wf_insertCells ho⟩

theorem reset_inMem_wf : State.reset.inMem.wf = true := rfl

theorem reset_outMem_wf : State.reset.outMem.wf = true := rfl

@[simp] theorem length_memRead (s : State) (sp : Side) (a n : Nat) : (memRead s sp a n).length = n := by
  simp [memRead]

theorem getElem?_memRead (s : State) (sp : Side) (a n k : Nat) :
    (memRead s sp a n)[k]? = if k < n then some (readByte s sp (a + k)) else none := by
  by_cases h : k < n <;> simp [memRead, h]

/-- What a byte reads as after a write: the byte written inside the range, else as before. -/
theorem readByte_memWrite (s : State) (sp sp' : Side) (a k : Nat) (bs : List (BitVec 8)) :
    readByte (memWrite s sp a bs) sp' k =
      if sp' = sp ∧ a ≤ k ∧ k < a + bs.length then bs.getD (k - a) 0#8 else readByte s sp' k := by
  by_cases hs : sp' = sp
  · subst hs
    have h : ∀ cs, (lookupCell k (insertCells a bs cs)).getD (Config.unwritten sp' s.epoch k) =
        if a ≤ k ∧ k < a + bs.length then bs.getD (k - a) 0#8
        else (lookupCell k cs).getD (Config.unwritten sp' s.epoch k) := by
      intro cs
      rw [lookupCell_insertCells]
      split
      · have hk : k - a < bs.length := by omega
        simp [List.getD, List.getElem?_eq_getElem hk]
      · rfl
    cases sp' <;> simp [readByte, memOf, h]
  · cases sp <;> cases sp' <;> simp_all [readByte, memOf]

/-- Two states with the same bytes in a range read the same sequence. -/
theorem memRead_congr {s t : State} {sp : Side} {a n : Nat}
    (h : ∀ k, k < n → readByte t sp (a + k) = readByte s sp (a + k)) :
    memRead t sp a n = memRead s sp a n := by
  apply List.map_congr_left
  intro k hk
  exact h k (List.mem_range.mp hk)

end Sys2Proof.Machine
end

