-- ==== Sys2Proof/Laws/Ops.lean ====
section
/-! SUPPORT. One lemma for each shared operation: what it can do, so that no proof unfolds it again. -/

namespace Sys2Proof.Machine

/-! ### Running a command -/

/-- A working block whose checks find nothing has the command's effect. -/
theorem runCommand_effect {i : Instr} {s e : State} (h : Working s) :
    runCommand i none e s = .next e := by
  have h : s.fault = false := h
  simp [runCommand, h]

/-- A working block whose checks find a cause takes that fault, with the command's word. -/
theorem runCommand_fault {i : Instr} {c : Cause} {s e : State} (h : Working s) :
    runCommand i (some c) e s = .next (raiseFault c (encode i) s) := by
  have h : s.fault = false := h
  simp [runCommand, h]

/-- All that running a command can do: nothing while frozen, a fault, or the effect. -/
theorem runCommand_cases {i : Instr} {chk : Option Cause} {s e t : State}
    (h : runCommand i chk e s = .next t) :
    (s.fault = true ∧ t = s) ∨
    (s.fault = false ∧ ∃ c, chk = some c ∧ t = raiseFault c (encode i) s) ∨
    (s.fault = false ∧ chk = none ∧ t = e) := by
  simp only [runCommand, Host.Outcome.next.injEq] at h
  cases hf : s.fault <;> simp only [hf, Bool.false_eq_true, if_false, if_true] at h
  · cases chk with
    | none => exact .inr (.inr ⟨rfl, rfl, h.symm⟩)
    | some c => exact .inr (.inl ⟨rfl, c, rfl, h.symm⟩)
  · exact .inl ⟨rfl, h.symm⟩

/-- Fault entry is what R203 says. -/
theorem raiseFault_entered (c : Cause) (r : BitVec 64) (s : State) :
    FaultEntered (causeCode c) r s (raiseFault c r s) := ⟨rfl, rfl, rfl, rfl, rfl⟩

/-! ### The checks -/

theorem msgOK_eq_true {s : State} {sp : Side} : msgOK s sp = true ↔ MsgOk s sp := by
  simp [msgOK, MsgOk]

theorem msgOK_eq_false {s : State} {sp : Side} : msgOK s sp = false ↔ ¬ MsgOk s sp := by
  rw [← msgOK_eq_true, Bool.not_eq_true]

theorem owned_iff {s : State} {sp : Side} :
    Owned s sp ↔ ¬ (sp = .outbound ∧ s.outBusy = false) := by
  cases sp <;> simp [Owned]

theorem rangeCheck_eq_none {s : State} {buf : Side} {off len : BitVec 16} {least : Nat} :
    rangeCheck s buf off len least = none ↔
      Owned s buf ∧ MsgOk s buf ∧ RangeOk s buf off len ∧ least ≤ len.toNat := by
  rw [owned_iff, ← msgOK_eq_true]
  unfold rangeCheck RangeOk
  split
  · simp_all
  · split
    · simp_all
    · split
      · simp_all
        omega
      · simp_all

theorem rangeCheck_nomsg {s : State} {buf : Side} {off len : BitVec 16} {least : Nat}
    (h : ¬ Owned s buf) : rangeCheck s buf off len least = some .nomsg := by
  rw [owned_iff, not_not] at h
  simp [rangeCheck, h]

theorem rangeCheck_msgstate {s : State} {buf : Side} {off len : BitVec 16} {least : Nat}
    (h : Owned s buf) (hm : ¬ MsgOk s buf) : rangeCheck s buf off len least = some .msgstate := by
  rw [owned_iff] at h
  rw [← msgOK_eq_false] at hm
  simp only [rangeCheck, h, hm, if_false, if_true]

theorem rangeCheck_range {s : State} {buf : Side} {off len : BitVec 16} {least : Nat}
    (h : Owned s buf) (hm : MsgOk s buf) (hr : ¬ RangeOk s buf off len ∨ len.toNat < least) :
    rangeCheck s buf off len least = some .range := by
  rw [owned_iff] at h
  rw [← msgOK_eq_true] at hm
  simp only [rangeCheck, h, hm, if_false]
  rw [if_neg (by simp), if_pos]
  simpa [RangeOk] using hr

theorem inboundCheck_none {s : State} (h : MsgOk s .inbound) : inboundCheck s = none := by
  simp [inboundCheck, msgOK_eq_true.mpr h]

theorem inboundCheck_msgstate {s : State} (h : ¬ MsgOk s .inbound) :
    inboundCheck s = some .msgstate := by
  simp [inboundCheck, msgOK_eq_false.mpr h]

theorem encqCheck_none {s : State} (hb : s.outBusy = true) (h : MsgOk s .outbound) :
    encqCheck s = none := by
  simp [encqCheck, hb, msgOK_eq_true.mpr h]

/-! ### Effects -/

/-- TXSUM folds the range with its field taken as zero. -/
theorem memRead_zeroed (s : State) (buf : Side) (off len : Nat) :
    memRead (memWrite s buf (off + 2) [0x00#8, 0x00#8]) buf off len = rangeFieldZero s buf off len := by
  apply List.map_congr_left
  intro k _
  rw [readByte_memWrite]
  by_cases h2 : k = 2
  · subst h2; simp
  · by_cases h3 : k = 3
    · subst h3; simp
    · rw [if_neg (by simp; omega)]
      simp [h2, h3]

/-- The fold TXSUM leaves in ACC (R99). -/
theorem txsumEffect_acc (buf : Side) (off len : BitVec 16) (s : State) :
    (txsumEffect buf off len s).acc = foldBytes s.acc (rangeFieldZero s buf off.toNat len.toNat) := by
  simp only [txsumEffect]
  rw [memRead_zeroed]

/-- The bytes after TXSUM: the checksum's two in the field, every other as before (R99). -/
theorem readByte_txsumEffect (buf : Side) (off len : BitVec 16) (s : State) (sp : Side) (k : Nat) :
    readByte (txsumEffect buf off len s) sp k =
      if sp = buf ∧ k = off.toNat + 2 then
        hi8 (txChecksum (foldBytes s.acc (rangeFieldZero s buf off.toNat len.toNat)))
      else if sp = buf ∧ k = off.toNat + 3 then
        lo8 (txChecksum (foldBytes s.acc (rangeFieldZero s buf off.toNat len.toNat)))
      else readByte s sp k := by
  have hr : ∀ (u : State) (x : BitVec 16), readByte { u with acc := x } sp k = readByte u sp k := by
    intro u x; cases sp <;> rfl
  simp only [txsumEffect, memRead_zeroed, hr, readByte_memWrite]
  by_cases hs : sp = buf
  · by_cases h2 : k = off.toNat + 2
    · subst h2; simp [hs]
    · by_cases h3 : k = off.toNat + 3
      · subst h3; simp [hs, show off.toNat + 3 - (off.toNat + 2) = 1 by omega]
      · have : ¬ (off.toNat + 2 ≤ k ∧ k < off.toNat + 2 + 2) := by omega
        simp [hs, h2, h3, this]
  · simp [hs]

/-- TXSUM changes nothing but ACC and the two memories (R99). -/
theorem txsumEffect_frame (buf : Side) (off len : BitVec 16) (s : State) :
    { txsumEffect buf off len s with acc := s.acc, inMem := s.inMem, outMem := s.outMem } = s := by
  cases buf <;> rfl

/-- The bytes after a prepend: the header, then the old message moved up, then as before (R53). -/
theorem readByte_prependOut (s : State) (h : List (BitVec 8)) (sp : Side) (k : Nat) :
    readByte (prependOut s h) sp k =
      if sp = .outbound ∧ k < h.length + s.outLen.toNat then
        (if k < h.length then h.getD k 0#8 else readByte s .outbound (k - h.length))
      else readByte s sp k := by
  have hr : ∀ (u : State) (x : BitVec 16), readByte { u with outLen := x } sp k = readByte u sp k := by
    intro u x; cases sp <;> rfl
  simp only [prependOut, hr, readByte_memWrite]
  by_cases hs : sp = .outbound
  · by_cases hk : k < h.length + s.outLen.toNat
    · simp only [hs, true_and, List.length_append, length_memRead, Nat.zero_le, Nat.zero_add, hk, if_true,
        Nat.sub_zero]
      by_cases hh : k < h.length
      · simp [hh, List.getElem?_append_left hh]
      · simp only [hh, if_false, List.getD_eq_getElem?_getD]
        rw [List.getElem?_append_right (by omega), getElem?_memRead]
        simp [show k - h.length < s.outLen.toNat by omega]
    · simp [hk]
  · simp [hs]

/-- The bytes after a reply is built: the four header bytes, the request's bytes from 4 on, then as before
(R144, R145). -/
theorem readByte_buildReply {n : Nat} (hn : 8 ≤ n) (s : State) (sp : Side) (k : Nat) :
    readByte (buildReply n s) sp k =
      if sp = .outbound ∧ k < n then
        (if k < 4 then [0x81#8, 0x00#8, 0x00#8, 0x00#8].getD k 0#8
         else readByte s .inbound (s.inOff.toNat + k))
      else readByte s sp k := by
  have hr : ∀ (u : State) (p l : BitVec 128) (f : BitVec 32) (b : Bool),
      readByte { u with oPeer := p, oLocal := l, oIfid := f, outBusy := b } sp k = readByte u sp k := by
    intro u p l f b; cases sp <;> rfl
  have hz : ∀ (sp' : Side) (x y : BitVec 16) (j : Nat),
      readByte { s with outLen := x, outOff := y } sp' j = readByte s sp' j := by
    intro sp' x y j; cases sp' <;> rfl
  simp only [buildReply, hr, copyRange]
  by_cases hs : sp = .outbound
  · subst hs
    simp only [true_and]
    rw [readByte_memWrite]
    by_cases h8 : 8 ≤ k
    · by_cases hk : k < n
      · simp only [true_and, h8, length_memRead, show k < 8 + (n - 8) by omega, if_true,
          List.getD_eq_getElem?_getD, getElem?_memRead, show k - 8 < n - 8 by omega, Option.getD_some,
          readByte_memWrite, reduceCtorEq, false_and, if_false, hz]
        simp [hk, show ¬ k < 4 by omega, show s.inOff.toNat + 8 + (k - 8) = s.inOff.toNat + k by omega]
      · simp only [true_and, h8, length_memRead, show ¬ k < 8 + (n - 8) by omega, if_false]
        simp [readByte_memWrite, hk, hz, show ¬ k < 8 by omega, show ¬ k < 4 by omega]
    · have hk : k < n := by omega
      simp only [h8, false_and, and_false, if_false, hk, if_true, readByte_memWrite]
      by_cases h4 : k < 4
      · simp [h4, Config.typeEchoReply, show ¬ 4 ≤ k by omega]
      · simp only [true_and, show 4 ≤ k by omega, length_memRead, show k < 4 + 4 by omega, if_true,
          List.getD_eq_getElem?_getD, getElem?_memRead, show k - 4 < 4 by omega, Option.getD_some,
          readByte_memWrite, reduceCtorEq, false_and, if_false, hz, h4]
        simp [show s.inOff.toNat + 4 + (k - 4) = s.inOff.toNat + k by omega]
  · simp [hs, readByte_memWrite, hz]

section

variable (n : Nat) (s : State)

@[simp] theorem buildReply_outLen : (buildReply n s).outLen = BitVec.ofNat 16 n := rfl
@[simp] theorem buildReply_outOff : (buildReply n s).outOff = 0x0000#16 := rfl
@[simp] theorem buildReply_oPeer : (buildReply n s).oPeer = s.iPeer := rfl
@[simp] theorem buildReply_oIfid : (buildReply n s).oIfid = s.iIfid := rfl
@[simp] theorem buildReply_oLocal :
    (buildReply n s).oLocal = if isMulticast s.iLocal then unspecified else s.iLocal := rfl
@[simp] theorem buildReply_outBusy : (buildReply n s).outBusy = true := rfl
@[simp] theorem buildReply_inMem : (buildReply n s).inMem = s.inMem := rfl

end

/-- What building a reply leaves alone (R146, R150). -/
theorem buildReply_frame (n : Nat) (s : State) :
    { buildReply n s with
      outMem := s.outMem, outLen := s.outLen, outOff := s.outOff, oPeer := s.oPeer, oLocal := s.oLocal,
      oIfid := s.oIfid, outBusy := s.outBusy } = s := rfl

/-- All that ENCR's steps after the MsgOK check can do (R140 to R149). -/
theorem encodeReply_cases (s : State) :
    encodeReply s = finish .none .none s ∨
    (s.echoEn = true ∧ encodeReply s = finish .none .none { s with logNobuf := true }) ∨
    (s.echoEn = true ∧ s.outBusy = false ∧ 8 ≤ s.inLen.toNat - s.inOff.toNat ∧
      s.inLen.toNat - s.inOff.toNat ≤ s.params.outCap.toNat ∧
      encodeReply s = finish .none .send (buildReply (s.inLen.toNat - s.inOff.toNat) s)) := by
  by_cases he : s.echoEn = true
  · by_cases hb : s.outBusy = true
    · exact .inr (.inl ⟨he, by simp [encodeReply, he, hb]⟩)
    · by_cases h8 : s.inLen.toNat - s.inOff.toNat < 8
      · exact .inl (by simp [encodeReply, he, hb, Config.echoHdr, h8])
      · by_cases hc : s.inLen.toNat - s.inOff.toNat > s.params.outCap.toNat
        · exact .inr (.inl ⟨he, by simp [encodeReply, he, hb, Config.echoHdr, h8, hc]⟩)
        · exact .inr (.inr ⟨he, by simpa using hb, by omega, by omega,
            by simp [encodeReply, he, hb, Config.echoHdr, h8, hc]⟩)
  · exact .inl (by simp [encodeReply, he])

/-- All that routing an inbound message can do (R162 to R167). -/
theorem routeInbound_cases (ty : BitVec 8) (s : State) :
    (ty = Config.typeEchoRequest ∧ routeInbound ty s = encodeReply s) ∨
    (ty = Config.typeEchoReply ∧ s.echoEn = true ∧ s.rhSet = true ∧
      routeInbound ty s = finish .none .deliver s) ∨
    (ty = Config.typeUnreachable ∧
      routeInbound ty s = finish .none .unreach { s with inOff := s.inOff + 4#16 }) ∨
    routeInbound ty s = finish .none .none s := by
  unfold routeInbound
  split
  · exact .inl ⟨by assumption, rfl⟩
  · split
    · split
      · exact .inr (.inl ⟨by assumption, by simp_all, by simp_all, rfl⟩)
      · exact .inr (.inr (.inr rfl))
    · split
      · exact .inr (.inr (.inl ⟨by assumption, rfl⟩))
      · exact .inr (.inr (.inr rfl))

/-- All that RX's effect can do (R155 to R161). -/
theorem rxEffect_cases (s : State) :
    (s.inLen.toNat - s.inOff.toNat < 4 ∧ rxEffect s = finish .none .none s) ∨
    (4 ≤ s.inLen.toNat - s.inOff.toNat ∧ inboundFold s ≠ 0xFFFF#16 ∧
      rxEffect s = finish .none .none { s with acc := inboundFold s }) ∨
    (4 ≤ s.inLen.toNat - s.inOff.toNat ∧ inboundFold s = 0xFFFF#16 ∧
      rxEffect s = routeInbound (readByte s .inbound s.inOff.toNat) { s with acc := 0xFFFF#16 }) := by
  by_cases hn : s.inLen.toNat - s.inOff.toNat < 4
  · exact .inl ⟨hn, by simp [rxEffect, Config.baseHdr, hn]⟩
  · by_cases h : inboundFold s = 0xFFFF#16
    · exact .inr (.inr ⟨by omega, h, by simp [rxEffect, Config.baseHdr, hn, all1, h]⟩)
    · exact .inr (.inl ⟨by omega, h, by simp [rxEffect, Config.baseHdr, hn, all1, h]⟩)

/-! ### The ports -/

/-- The numbers and the registers of R11 stand one to one. -/
theorem regOfNum_num (r : Reg) : regOfNum r.num = some r := by cases r <;> decide

theorem regOfNum_some {n : BitVec 8} {r : Reg} (h : regOfNum n = some r) : n = r.num := by
  have := List.find?_some h
  exact (beq_iff_eq.mp this).symm

/-- A word written to CMD of a working block (R13). -/
theorem hostWrite_cmd {w : BitVec 64} {s : State} (h : Working s) :
    hostWrite 0x00#8 w s = runWord w s := by
  have h : s.fault = false := h
  have hr : regOfNum 0x00#8 = some .cmd := by decide
  unfold hostWrite
  rw [h, hr]
  exact congrArg (runWord · s) (BitVec.setWidth_eq w)

/-- A value kept at a width goes out at 128 bits and back unchanged. -/
theorem setWidth_roundtrip {w : Nat} (hw : w ≤ 128) (v : BitVec w) :
    (v.setWidth 128).setWidth w = v := by
  apply BitVec.eq_of_toNat_eq
  simp only [BitVec.toNat_setWidth]
  have h1 := v.isLt
  have h2 : 2 ^ w ≤ 2 ^ 128 := Nat.pow_le_pow_right (by decide) hw
  rw [Nat.mod_eq_of_lt (Nat.lt_of_lt_of_le h1 h2), Nat.mod_eq_of_lt h1]

end Sys2Proof.Machine
end

