-- ==== Sys2Proof/Laws/Exec.lean ====
section
/-! SUPPORT. What each command does in a working block whose checks pass, as one equation per command, and
what a step does with the head of the script. -/

namespace Sys2Proof.Machine

theorem exec_seed {info : Side} {nh : BitVec 8} {plen : BitVec 16} {s : State} (h : Working s) :
    exec (.seed info nh plen) s = .next (finish .none .none
      { s with acc := seedOf (localOf s info) (peerOf s info) plen nh }) :=
  runCommand_effect (i := .seed info nh plen) h

theorem exec_fold {buf : Side} {off len : BitVec 16} {s : State} (h : Working s) (ho : Owned s buf)
    (hm : MsgOk s buf) (hr : RangeOk s buf off len) :
    exec (.fold buf off len) s = .next (finish .none .none
      { s with acc := foldBytes s.acc (memRead s buf off.toNat len.toNat) }) := by
  simp only [exec, execFold, rangeCheck_eq_none.mpr ⟨ho, hm, hr, Nat.zero_le _⟩]
  exact runCommand_effect h

theorem exec_txsum {buf : Side} {off len : BitVec 16} {s : State} (h : Working s) (ho : Owned s buf)
    (hm : MsgOk s buf) (hr : RangeOk s buf off len) (h4 : 4 ≤ len.toNat) :
    exec (.txsum buf off len) s = .next (finish .none .none (txsumEffect buf off len s)) := by
  simp only [exec, execTxsum, Config.baseHdr, rangeCheck_eq_none.mpr ⟨ho, hm, hr, h4⟩]
  exact runCommand_effect h

theorem exec_encq {s : State} (h : Working s) (hb : s.outBusy = true) (hm : MsgOk s .outbound) :
    exec .encq s = .next (encqEffect s) := by
  simp only [exec, execEncq, encqCheck_none hb hm]
  exact runCommand_effect h

theorem exec_encr {s : State} (h : Working s) (hm : MsgOk s .inbound) :
    exec .encr s = .next (encodeReply s) := by
  simp only [exec, execEncr, inboundCheck_none hm]
  exact runCommand_effect h

theorem exec_rx {s : State} (h : Working s) (hm : MsgOk s .inbound) :
    exec .rx s = .next (rxEffect s) := by
  simp only [exec, execRx, inboundCheck_none hm]
  exact runCommand_effect h

theorem exec_alloc {s : State} (h : Working s) : exec .alloc s = .next (allocEffect s) :=
  runCommand_effect (i := .alloc) h

theorem exec_rel {s : State} (h : Working s) (hb : s.outBusy = true) :
    exec .rel s = .next (finish .none .none { s with outBusy := false }) := by
  simp only [exec, execRel, hb, if_true]
  exact runCommand_effect h

/-- Two states with the same memories and the same free bytes read alike. -/
theorem bytesKept_of_eq {s t : State} (hi : t.inMem = s.inMem) (ho : t.outMem = s.outMem)
    (he : t.epoch = s.epoch) : BytesKept s t := by
  intro sp i
  cases sp <;> simp [readByte, memOf, hi, ho, he]

@[simp] theorem readByte_finish (e : Err) (a : Act) (s : State) (sp : Side) (k : Nat) :
    readByte (finish e a s) sp k = readByte s sp k := by cases sp <;> rfl

/-- A step takes the head off the script and performs it. -/
theorem step_cons {s : State} {a : HostAction} {rest : List HostAction} (h : s.script = a :: rest) :
    step s = perform a { s with script := rest } := by
  simp only [step, h]

/-- A word written to CMD of a working block runs in the step (R13). -/
theorem step_word {s : State} {w : BitVec 64} {rest : List HostAction} (hw : Working s)
    (h : s.script = .wr 0x00#8 w :: rest) : step s = runWord w { s with script := rest } := by
  rw [step_cons h]
  exact hostWrite_cmd (s := { s with script := rest }) hw

end Sys2Proof.Machine
end

