-- ==== Sys2Proof/Laws/Effects.lean ====
section
/-! SUPPORT. Said once: everything a command can do (`exec_effect`) and everything a step can do
(`step_effect`), so that no later proof unfolds `exec` or `step`. -/

namespace Sys2Proof.Machine

theorem rangeCheck_cause {s : State} {buf : Side} {off len : BitVec 16} {least : Nat} {c : Cause}
    (h : rangeCheck s buf off len least = some c) : c ∈ [Cause.nomsg, .msgstate, .range] := by
  unfold rangeCheck at h
  repeat' split at h
  all_goals first | (injection h with h; subst h; simp) | cases h

theorem encqCheck_cause {s : State} {c : Cause} (h : encqCheck s = some c) :
    c ∈ [Cause.nomsg, .msgstate, .range] := by
  unfold encqCheck at h
  repeat' split at h
  all_goals first | (injection h with h; subst h; simp) | cases h

theorem inboundCheck_cause {s : State} {c : Cause} (h : inboundCheck s = some c) :
    c ∈ [Cause.nomsg, .msgstate, .range] := by
  unfold inboundCheck at h
  repeat' split at h
  all_goals first | (injection h with h; subst h; simp) | cases h

theorem encqCheck_eq_none {s : State} (h : encqCheck s = none) :
    s.outBusy = true ∧ MsgOk s .outbound := by
  have hb : s.outBusy = true := by
    by_contra hb
    simp [encqCheck, show s.outBusy = false by simpa using hb] at h
  refine ⟨hb, msgOK_eq_true.mp ?_⟩
  by_contra hm
  simp [encqCheck, hm, hb] at h

/-- All that a command can do to a state: stay frozen, fault, or one of the effects of its rules. -/
inductive CommandEffect (i : Instr) (s t : State) : Prop
  /-- A frozen block (R204). -/
  | frozen (hf : s.fault = true) (e : t = s)
  /-- A check failed (R202, R203). -/
  | fault (hf : s.fault = false) (c : Cause) (hc : c ∈ [Cause.nomsg, .msgstate, .range])
      (e : t = raiseFault c (encode i) s)
  /-- SEED or FOLD: ACC (R96, R97). -/
  | sum (hf : s.fault = false) (x : BitVec 16)
      (hi : (∃ a b c, i = .seed a b c) ∨ ∃ a b c, i = .fold a b c)
      (e : t = finish .none .none { s with acc := x })
  /-- TXSUM (R99). -/
  | txsum (hf : s.fault = false) (buf : Side) (off len : BitVec 16) (hi : i = .txsum buf off len)
      (ho : Owned s buf) (hm : MsgOk s buf) (hr : RangeOk s buf off len) (h4 : 4 ≤ len.toNat)
      (e : t = finish .none .none (txsumEffect buf off len s))
  /-- ENCQ without headroom (R124). -/
  | noroom (hf : s.fault = false) (hi : i = .encq) (hb : s.outBusy = true)
      (e : t = finish .noroom .none { s with seq := s.seq + 1#16 })
  /-- ENCQ with headroom (R121 to R123). -/
  | request (hf : s.fault = false) (hi : i = .encq) (hb : s.outBusy = true) (hm : MsgOk s .outbound)
      (hc : s.outLen.toNat + 8 ≤ s.params.outCap.toNat)
      (e : t = finish .none .send
        { prependOut { s with seq := s.seq + 1#16 }
            (echoHeader Config.typeEchoRequest Config.ident s.seq) with outOff := 0x0000#16 })
  /-- ENCR or RX without a result but RES and, for RX, ACC. -/
  | quiet (hf : s.fault = false) (x : BitVec 16) (hi : i = .encr ∨ i = .rx)
      (e : t = finish .none .none { s with acc := x })
  /-- ENCR or RX with no buffer for the reply (R142, R149). -/
  | log (hf : s.fault = false) (x : BitVec 16) (hi : i = .encr ∨ i = .rx)
      (e : t = finish .none .none { s with acc := x, logNobuf := true })
  /-- ENCR or RX with a reply (R143 to R147). -/
  | reply (hf : s.fault = false) (x : BitVec 16) (hi : i = .encr ∨ i = .rx) (hb : s.outBusy = false)
      (h8 : 8 ≤ s.inLen.toNat - s.inOff.toNat)
      (hc : s.inLen.toNat - s.inOff.toNat ≤ s.params.outCap.toNat)
      (e : t = finish .none .send (buildReply (s.inLen.toNat - s.inOff.toNat) { s with acc := x }))
  /-- RX of an echo reply that is delivered (R164). -/
  | deliver (hf : s.fault = false) (x : BitVec 16) (hi : i = .rx)
      (e : t = finish .none .deliver { s with acc := x })
  /-- RX of a destination-unreachable message (R166). -/
  | unreach (hf : s.fault = false) (x : BitVec 16) (hi : i = .rx)
      (e : t = finish .none .unreach { s with acc := x, inOff := s.inOff + 4#16 })
  /-- ALLOC of an owned buffer (R175). -/
  | nobufs (hf : s.fault = false) (hi : i = .alloc) (hb : s.outBusy = true)
      (e : t = finish .nobufs .none s)
  /-- ALLOC of a free buffer (R175). -/
  | alloc (hf : s.fault = false) (hi : i = .alloc) (hb : s.outBusy = false)
      (e : t = finish .none .none { s with outBusy := true, outLen := 0x0000#16, outOff := 0x0000#16 })
  /-- REL (R176). -/
  | rel (hf : s.fault = false) (hi : i = .rel) (hb : s.outBusy = true)
      (e : t = finish .none .none { s with outBusy := false })

theorem encodeReply_effect {i : Instr} {s t : State} (x : BitVec 16) (hi : i = .encr ∨ i = .rx)
    (hf : s.fault = false) (e : t = encodeReply { s with acc := x }) : CommandEffect i s t := by
  rcases encodeReply_cases { s with acc := x } with h | ⟨_, h⟩ | ⟨_, hb, h8, hc, h⟩
  · exact .quiet hf x hi (e.trans h)
  · exact .log hf x hi (e.trans h)
  · exact .reply hf x hi hb h8 hc (e.trans h)

theorem rxEffect_effect {s t : State} (hf : s.fault = false) (e : t = rxEffect s) :
    CommandEffect .rx s t := by
  rcases rxEffect_cases s with ⟨_, h⟩ | ⟨_, _, h⟩ | ⟨_, _, h⟩
  · exact .quiet hf s.acc (.inr rfl) (e.trans h)
  · exact .quiet hf _ (.inr rfl) (e.trans h)
  · rw [h] at e
    rcases routeInbound_cases (readByte s .inbound s.inOff.toNat) { s with acc := 0xFFFF#16 } with
      ⟨_, h⟩ | ⟨_, _, _, h⟩ | ⟨_, h⟩ | h
    · exact encodeReply_effect _ (.inr rfl) hf (e.trans h)
    · exact .deliver hf _ rfl (e.trans h)
    · exact .unreach hf _ rfl (e.trans h)
    · exact .quiet hf _ (.inr rfl) (e.trans h)

/-- Every command ends in a state that is one of its effects. -/
theorem exec_effect {i : Instr} {s t : State} (h : exec i s = .next t) : CommandEffect i s t := by
  cases i with
  | seed a b c =>
    rcases runCommand_cases (i := .seed a b c) (chk := none) h with ⟨hf, e⟩ | ⟨_, _, hc, _⟩ | ⟨hf, _, e⟩
    · exact .frozen hf e
    · cases hc
    · exact .sum hf _ (.inl ⟨_, _, _, rfl⟩) e
  | fold a b c =>
    rcases runCommand_cases h with ⟨hf, e⟩ | ⟨hf, k, hc, e⟩ | ⟨hf, _, e⟩
    · exact .frozen hf e
    · exact .fault hf k (rangeCheck_cause hc) e
    · exact .sum hf _ (.inr ⟨_, _, _, rfl⟩) e
  | txsum a b c =>
    rcases runCommand_cases h with ⟨hf, e⟩ | ⟨hf, k, hc, e⟩ | ⟨hf, hc, e⟩
    · exact .frozen hf e
    · exact .fault hf k (rangeCheck_cause hc) e
    · obtain ⟨ho, hm, hr, h4⟩ := rangeCheck_eq_none.mp hc
      exact .txsum hf a b c rfl ho hm hr h4 e
  | encq =>
    rcases runCommand_cases h with ⟨hf, e⟩ | ⟨hf, k, hc, e⟩ | ⟨hf, hc, e⟩
    · exact .frozen hf e
    · exact .fault hf k (encqCheck_cause hc) e
    · obtain ⟨hb, hm⟩ := encqCheck_eq_none hc
      by_cases hx : s.params.outCap.toNat < s.outLen.toNat + 8
      · exact .noroom hf rfl hb (by rw [e]; simp [encqEffect, Config.echoHdr, hx])
      · exact .request hf rfl hb hm (by omega) (by rw [e]; simp [encqEffect, Config.echoHdr, hx])
  | encr =>
    rcases runCommand_cases h with ⟨hf, e⟩ | ⟨hf, k, hc, e⟩ | ⟨hf, hc, e⟩
    · exact .frozen hf e
    · exact .fault hf k (inboundCheck_cause hc) e
    · exact encodeReply_effect s.acc (.inl rfl) hf e
  | rx =>
    rcases runCommand_cases h with ⟨hf, e⟩ | ⟨hf, k, hc, e⟩ | ⟨hf, hc, e⟩
    · exact .frozen hf e
    · exact .fault hf k (inboundCheck_cause hc) e
    · exact rxEffect_effect hf e
  | alloc =>
    rcases runCommand_cases (i := .alloc) (chk := none) h with ⟨hf, e⟩ | ⟨_, _, hc, _⟩ | ⟨hf, _, e⟩
    · exact .frozen hf e
    · cases hc
    · by_cases hb : s.outBusy = true
      · exact .nobufs hf rfl hb (by rw [e]; simp [allocEffect, hb])
      · exact .alloc hf rfl (by simpa using hb) (by rw [e]; simp [allocEffect, hb])
  | rel =>
    rcases runCommand_cases h with ⟨hf, e⟩ | ⟨hf, k, hc, e⟩ | ⟨hf, hc, e⟩
    · exact .frozen hf e
    · refine .fault hf k ?_ e
      split at hc
      · cases hc
      · injection hc with hc; subst hc; simp
    · refine .rel hf rfl ?_ e
      by_contra hb
      rw [if_neg hb] at hc
      cases hc

/-- All that one host action can do. The state after the action is told over the state with the action taken
off the script. -/
inductive StepEffect (s t : State) : Prop
  /-- No action to come (R230). -/
  | idle (hs : s.script = []) (e : t = s)
  /-- RESET (R183). -/
  | reset (rest : List HostAction) (hs : s.script = .reset :: rest)
      (e : t = resetAction { s with script := rest })
  /-- A command (R13). -/
  | command (rest : List HostAction) (w : BitVec 64) (i : Instr) (hs : s.script = .wr 0x00#8 w :: rest)
      (hf : s.fault = false) (hd : decode w = .instr i) (e : exec i { s with script := rest } = .next t)
  /-- A word that is no command (R67). -/
  | badWord (rest : List HostAction) (w : BitVec 64) (c : Cause) (hs : s.script = .wr 0x00#8 w :: rest)
      (hf : s.fault = false) (hc : c ∈ [Cause.illop, .rsvd]) (e : t = raiseFault c w { s with script := rest })
  /-- A write to a frozen block (R184, R204). -/
  | frozen (rest : List HostAction) (hf : s.fault = true) (e : t = { s with script := rest })
  /-- A register write (R177). -/
  | register (rest : List HostAction) (v : BitVec 128) (r : Reg) (hf : s.fault = false)
      (e : writeReg { s with script := rest } v r = some t)
  /-- A buffer write (R179). -/
  | byte (rest : List HostAction) (sp : Side) (i : Nat) (v : BitVec 8) (hf : s.fault = false)
      (hi : i < (capOf s sp).toNat) (e : t = memWrite { s with script := rest } sp i [v])
  /-- A host write that faults (R177, R179). -/
  | deniedWrite (rest : List HostAction) (c : Cause) (record : BitVec 64) (hf : s.fault = false)
      (hc : c ∈ [Cause.regacc, .bufacc]) (e : t = raiseFault c record { s with script := rest })
  /-- A host read that faults (R178, R179). -/
  | deniedRead (rest : List HostAction) (c : Cause) (record : BitVec 64) (hf : s.fault = false)
      (hc : c ∈ [Cause.regacc, .bufacc])
      (e : t = { raiseFault c record { s with script := rest } with readout := Config.faultedReadout s.epoch })
  /-- A host read (R178, R179). -/
  | read (rest : List HostAction) (v : Option (BitVec 128))
      (e : t = { s with script := rest, readout := v })

theorem deniedRead_effect {s t : State} {rest : List HostAction} {c : Cause} {record : BitVec 64}
    (hc : c ∈ [Cause.regacc, .bufacc]) (e : t = deniedRead c record { s with script := rest }) :
    StepEffect s t := by
  unfold deniedRead at e
  split at e
  · exact .read rest _ e
  · exact .deniedRead rest c record (by simp_all) hc e

theorem runWord_effect {s t : State} {rest : List HostAction} {w : BitVec 64}
    (hs : s.script = .wr 0x00#8 w :: rest) (hf : s.fault = false)
    (h : runWord w { s with script := rest } = .next t) : StepEffect s t := by
  unfold runWord at h
  split at h
  · exact .command rest w _ hs hf (by assumption) h
  · injection h with h; exact .badWord rest w .illop hs hf (by simp) h.symm
  · injection h with h; exact .badWord rest w .rsvd hs hf (by simp) h.symm

/-- Every step ends in a state that is one of its action's effects. -/
theorem step_effect {s t : State} (h : step s = .next t) : StepEffect s t := by
  cases hs : s.script with
  | nil => simp only [step, hs] at h; cases h; exact .idle hs rfl
  | cons a rest =>
    rw [step_cons hs] at h
    have hc : ∀ sp, capOf { s with script := rest } sp = capOf s sp := by intro sp; cases sp <;> rfl
    cases a with
    | reset => cases h; exact .reset rest hs rfl
    | rd n =>
      simp only [perform, hostRead] at h
      split at h
      · cases h; exact .read rest _ rfl
      · injection h with h; exact deniedRead_effect (c := .regacc) (by simp) h.symm
    | rdb sp i =>
      simp only [perform, hostReadByte, hc] at h
      split at h
      · cases h; exact .read rest _ rfl
      · injection h with h; exact deniedRead_effect (c := .bufacc) (by simp) h.symm
    | wrb sp i v =>
      simp only [perform, hostWriteByte, hc] at h
      split at h
      · injection h with h; exact .frozen rest (by assumption) h.symm
      · split at h
        · injection h with h; exact .byte rest sp _ v (by simp_all) (by assumption) h.symm
        · injection h with h; exact .deniedWrite rest .bufacc _ (by simp_all) (by simp) h.symm
    | wr n v =>
      simp only [perform, hostWrite] at h
      by_cases hf : s.fault = true
      · rw [if_pos hf] at h; injection h with h; exact .frozen rest hf h.symm
      · rw [if_neg hf] at h
        have hf : s.fault = false := by simpa using hf
        split at h
        · injection h with h; exact .deniedWrite rest .regacc _ hf (by simp) h.symm
        · obtain rfl : n = 0x00#8 := regOfNum_some (by assumption)
          rw [show BitVec.setWidth 64 v = v from BitVec.setWidth_eq v] at h
          exact runWord_effect hs hf h
        · split at h
          · injection h with h; subst h; exact .register rest _ _ hf (by assumption)
          · injection h with h; exact .deniedWrite rest .regacc _ hf (by simp) h.symm

/-- What a register write leaves alone (R177). -/
theorem writeReg_frame {s t : State} {v : BitVec 128} {r : Reg} (h : writeReg s v r = some t) :
    t.fault = s.fault ∧ t.params = s.params ∧ t.seq = s.seq ∧ t.outBusy = s.outBusy ∧ t.res = s.res ∧
      t.fcode = s.fcode ∧ t.fcmd = s.fcmd ∧ t.inMem = s.inMem ∧ t.outMem = s.outMem ∧ t.epoch = s.epoch := by
  cases r <;> simp only [writeReg, Option.some.injEq, reduceCtorEq] at h <;> subst h <;> simp

end Sys2Proof.Machine
end

