-- ==== Sys2Proof/Laws/PerInstr.lean ====
section
/-! SUPPORT. What holds of every command as syntax, one lemma per constructor of Instr. -/

namespace Sys2Proof.Laws.OpcodeField

/-- The word of a command carries its row's opcode in bits 63:56 and zeros in bits 47:32, which are zero in
every format (spec/30_encoding.md R61, R65). -/
def Statement (i : Instr) : Prop :=
  fieldOp (encode i) = (match i with
    | .seed _ _ _ => 0x01#8
    | .fold _ _ _ => 0x02#8
    | .txsum _ _ _ => 0x03#8
    | .encq => 0x10#8
    | .encr => 0x11#8
    | .rx => 0x12#8
    | .alloc => 0x20#8
    | .rel => 0x21#8) ∧
  fieldZero (encode i) = 0#16

theorem seed (info : Side) (nh : BitVec 8) (plen : BitVec 16) : Statement (.seed info nh plen) := by
  have h := toNat_encode_seed info nh plen
  have h1 := nh.isLt
  have h2 := plen.isLt
  have h3 := (sideBit info).isLt
  constructor <;> apply BitVec.eq_of_toNat_eq <;>
    simp only [fieldOp, fieldZero, toNat_extract_eq, h, BitVec.toNat_ofNat] <;> omega

theorem encodeR_fields (op : BitVec 8) (buf : Side) (off len : BitVec 16) :
    fieldOp (encodeR op buf off len) = op ∧ fieldZero (encodeR op buf off len) = 0#16 := by
  have h := toNat_encodeR op buf off len
  have h1 := off.isLt
  have h2 := len.isLt
  have h3 := (sideBit buf).isLt
  have h4 := op.isLt
  constructor <;> apply BitVec.eq_of_toNat_eq <;>
    simp only [fieldOp, fieldZero, toNat_extract_eq, h, BitVec.toNat_ofNat] <;> omega

theorem fold (buf : Side) (off len : BitVec 16) : Statement (.fold buf off len) :=
  encodeR_fields 0x02#8 buf off len

theorem txsum (buf : Side) (off len : BitVec 16) : Statement (.txsum buf off len) :=
  encodeR_fields 0x03#8 buf off len

theorem encq : Statement .encq := ⟨rfl, rfl⟩

theorem encr : Statement .encr := ⟨rfl, rfl⟩

theorem rx : Statement .rx := ⟨rfl, rfl⟩

theorem alloc : Statement .alloc := ⟨rfl, rfl⟩

theorem rel : Statement .rel := ⟨rfl, rfl⟩

end Sys2Proof.Laws.OpcodeField
end

