-- ==== Sys2Proof/Tests/Slice0.lean ====
section
/-! SUPPORT. Tests of the model against the vectors of spec/95_test_vectors.md (each named by its number V<n>)
and the encodings of spec/30_encoding.md, and for every statement with hypotheses a concrete case that meets
them all. -/

namespace Sys2Proof.Machine.Tests

/-! ## Small states -/

/-- An instance with buffers of 64 bytes (programs P1 and P2). -/
def caps : Params := ⟨64#16, 64#16, 0#16, false⟩

/-- The block after reset with those parameters. -/
def base : State := State.initial caps 0

/-- fe80::1, A of spec/95_test_vectors.md. -/
def addrA : BitVec 128 := 0xFE800000000000000000000000000001#128

/-- fe80::2, B. -/
def addrB : BitVec 128 := 0xFE800000000000000000000000000002#128

/-- ff02::1, M. -/
def addrM : BitVec 128 := 0xFF020000000000000000000000000001#128

/-- The request of V17 and V50: an echo request from A to B with a checksum that verifies. -/
def request : List Byte :=
  [0x80#8, 0x00#8, 0xE5#8, 0x14#8, 0x00#8, 0x01#8, 0x00#8, 0x01#8, 0xDE#8, 0xAD#8, 0xBE#8, 0xEF#8]

/-- `s` with an inbound message of the bytes `bs` from A to B, the cursor at 0. -/
def inbound (bs : List Byte) (s : State) : State :=
  { memWrite s .inbound 0 bs with
    iPeer := addrA, iLocal := addrB, iIfid := 3#32, inLen := BitVec.ofNat 16 bs.length, inOff := 0#16 }

/-- `s` owning an outbound message of the bytes `bs`. -/
def outbound (bs : List Byte) (s : State) : State :=
  { memWrite s .outbound 0 bs with
    outBusy := true, outLen := BitVec.ofNat 16 bs.length, outOff := 0#16 }

/-- A view of the state a step or a command answers; none where it answers no next state. -/
def view {α : Type} (f : State → α) : Host.Outcome State Fault Refusal → Option α
  | .next t => some (f t)
  | .fault _ => none
  | .refused _ => none

/-- The state a step or a command answers, a state of its own where it answers none. -/
def landed : Host.Outcome State Fault Refusal → State
  | .next t => t
  | .fault _ => base
  | .refused _ => base

/-! ## WellFormed smoke: an ill-formed term for each check -/

/-- R67 (a): opcode 0x00 is no row's. -/
theorem test_wf_opcode : opcodeAssigned 0x0000000000000000#64 = false ∧ wordWF 0x0000000000000000#64 = false := by
  decide

/-- R67 (b): a must-be-zero bit of format Z (bit 32), of format S (bit 17) and of format R (bit 49). -/
theorem test_wf_reserved : wordWF 0x2000000100000000#64 = false ∧ wordWF 0x013A000000020000#64 = false ∧
    wordWF 0x0202000000000000#64 = false := by decide

/-- R4: IN_CAP 0 and OUT_CAP 7 are out of range, IN_CAP 1 and OUT_CAP 8 are in it. -/
theorem test_wf_params : Params.wf ⟨0#16, 8#16, 0#16, false⟩ = false ∧
    Params.wf ⟨1#16, 7#16, 0#16, false⟩ = false ∧ Params.wf ⟨1#16, 8#16, 0#16, false⟩ = true := by decide

/-! ## Decoding: words written out from R62 to R65 -/

/-- Format S: op 0x01, nh 58, 16 zeros, 15 zeros, info, plen 12. -/
theorem test_decode_seed :
    decode (0b00000001#8 ++ 0b00111010#8 ++ 0b0000000000000000#16 ++ 0b000000000000000#15 ++ 0b0#1
      ++ 0b0000000000001100#16) = .instr (.seed .inbound 58#8 12#16) ∧
    decode (0b00000001#8 ++ 0b11111111#8 ++ 0b0000000000000000#16 ++ 0b000000000000000#15 ++ 0b1#1
      ++ 0b1000000000000001#16) = .instr (.seed .outbound 255#8 32769#16) := by decide

/-- Format R: op 0x02, 7 zeros, buf, 16 zeros, off, len. -/
theorem test_decode_fold :
    decode (0b00000010#8 ++ 0b0000000#7 ++ 0b0#1 ++ 0b0000000000000000#16 ++ 0b0000000000101000#16
      ++ 0b0000000000001100#16) = .instr (.fold .inbound 40#16 12#16) ∧
    decode (0b00000010#8 ++ 0b0000000#7 ++ 0b1#1 ++ 0b0000000000000000#16 ++ 0b1111111111111111#16
      ++ 0b1000000000000000#16) = .instr (.fold .outbound 65535#16 32768#16) := by decide

/-- Format R: op 0x03. -/
theorem test_decode_txsum :
    decode (0b00000011#8 ++ 0b0000000#7 ++ 0b1#1 ++ 0b0000000000000000#16 ++ 0b0000000000000000#16
      ++ 0b0000000000001100#16) = .instr (.txsum .outbound 0#16 12#16) ∧
    decode 0x0300000000010003#64 = .instr (.txsum .inbound 1#16 3#16) := by decide

/-- Format Z: the five opcodes 0x10, 0x11, 0x12, 0x20, 0x21 and 56 zeros. -/
theorem test_decode_z :
    decode (0b00010000#8 ++ 0#56) = .instr .encq ∧ decode (0b00010001#8 ++ 0#56) = .instr .encr ∧
    decode (0b00010010#8 ++ 0#56) = .instr .rx ∧ decode (0b00100000#8 ++ 0#56) = .instr .alloc ∧
    decode (0b00100001#8 ++ 0#56) = .instr .rel := by decide

/-- Rejected by name: V74, V82, V27, V64, V83. -/
theorem test_decode_rejects :
    decode 0x0000000000000000#64 = .illegalOpcode ∧ decode 0xFF00000000000000#64 = .illegalOpcode ∧
    decode 0x013A000000020000#64 = .reservedBits ∧ decode 0x1200000000000001#64 = .reservedBits ∧
    decode 0x2000000100000000#64 = .reservedBits := by decide

/-- The syntax table of R78 (worked encodings). -/
theorem test_encode : encode (.seed .outbound 58#8 12#16) = 0x013A00000001000C#64 ∧
    encode (.fold .inbound 40#16 12#16) = 0x020000000028000C#64 ∧
    encode (.txsum .outbound 0#16 12#16) = 0x030100000000000C#64 ∧
    encode .rel = 0x2100000000000000#64 := by decide

/-- The host's reading of a table word, and a step that runs it as the first command after reset. -/
theorem test_fetch_word : decodeTableWord 64 0x2000000000000000 = some .alloc ∧
    decodeTableWord 64 0 = none ∧
    view (fun t => (t.outBusy, t.res)) (step (State.reset.withFetchWord 64 0x2000000000000000))
      = some (true, 0x00#8) := by decide

/-! ## Arithmetic: V1 to V13 -/

theorem test_oc_add : ocAdd 0x0000#16 0x0000#16 = 0x0000#16 ∧ ocAdd 0xFFFF#16 0x0000#16 = 0xFFFF#16 ∧
    ocAdd 0xFFFF#16 0x0001#16 = 0x0001#16 ∧ ocAdd 0xFFFF#16 0xFFFF#16 = 0xFFFF#16 ∧
    ocAdd 0x8000#16 0x8000#16 = 0x0001#16 ∧ ocAdd 0x1234#16 0xEDCB#16 = 0xFFFF#16 := by decide

theorem test_fold_bytes :
    foldBytes 0#16 [0x00#8, 0x01#8, 0xF2#8, 0x03#8, 0xF4#8, 0xF5#8, 0xF6#8, 0xF7#8] = 0xDDF2#16 ∧
    foldBytes 0#16 [0x01#8, 0x02#8, 0x03#8] = 0x0402#16 ∧ foldBytes 0#16 [0xAB#8] = 0xAB00#16 ∧
    foldBytes 0x1234#16 [] = 0x1234#16 := by decide

theorem test_seed_of : seedOf addrB addrA 12#16 58#8 = 0xFD4A#16 ∧
    seedOf addrA addrB 12#16 58#8 = 0xFD4A#16 ∧ seedOf 0#128 0#128 0#16 0#8 = 0x0000#16 ∧
    seedOf addrM addrA 11#16 58#8 = 0xFDCA#16 := by decide

/-! ## The commands -/

/-- V29: the inbound pair, I_LOCAL and I_PEER. -/
theorem test_seed_inbound :
    view (·.acc) (exec (.seed .inbound 58#8 11#16) { base with iLocal := addrM, iPeer := addrA })
      = some 0xFDCA#16 := by decide

/-- The first step of V16: the outbound pair; ACC is overwritten. -/
theorem test_seed_outbound :
    view (fun t => (t.acc, t.res)) (exec (.seed .outbound 58#8 6#16)
      { base with oLocal := addrB, oPeer := addrA, acc := 0x5555#16, res := 0x01#8 })
      = some (0xFD44#16, 0x00#8) := by decide

/-- V22: an odd offset; bytes 02 03 pair as 0x0203. -/
theorem test_fold_odd_offset :
    view (·.acc) (exec (.fold .inbound 1#16 2#16)
      { inbound [0x01#8, 0x02#8, 0x03#8, 0x04#8] base with acc := 0x0406#16 }) = some 0x0609#16 := by decide

/-- V24: a range that passes the end. -/
theorem test_fold_range_fault :
    view (fun t => (t.fault, t.fcode, t.fcmd, t.res)) (exec (.fold .inbound 2#16 3#16)
      (inbound [0x01#8, 0x02#8, 0x03#8, 0x04#8] base))
      = some (true, 0x05#8, 0x0200000000020003#64, 0x03#8) := by decide

/-- V14. -/
theorem test_txsum :
    view (fun t => (memRead t .outbound 0 6, t.acc)) (exec (.txsum .outbound 0#16 12#16)
      { outbound [0x80#8, 0x00#8, 0x00#8, 0x00#8, 0x00#8, 0x01#8, 0x00#8, 0x01#8, 0xDE#8, 0xAD#8, 0xBE#8,
                  0xEF#8] base with acc := 0xFD4A#16 })
      = some ([0x80#8, 0x00#8, 0xE5#8, 0x14#8, 0x00#8, 0x01#8], 0x1AEB#16) := by decide

/-- V16: the fold is already 0xFFFF and the field is not complemented; the old field is not summed. -/
theorem test_txsum_corner :
    view (fun t => (memRead t .outbound 0 6, t.acc)) (exec (.txsum .outbound 0#16 6#16)
      { outbound [0xC8#8, 0x00#8, 0x12#8, 0x34#8, 0x3A#8, 0xBA#8] base with acc := 0xFD44#16 })
      = some ([0xC8#8, 0x00#8, 0xFF#8, 0xFF#8, 0x3A#8, 0xBA#8], 0xFFFF#16) := by decide

/-- V31: no headroom; SEQ wraps all the same. -/
theorem test_encq_noroom :
    view (fun t => (t.seq, t.res, t.outLen)) (exec .encq
      { outbound [0x01#8, 0x02#8, 0x03#8, 0x04#8] base with
        seq := 0xFFFF#16, params := ⟨64#16, 10#16, 0#16, false⟩ })
      = some (0x0000#16, 0x02#8, 4#16) := by decide

/-- V32: the header fits exactly and carries SEQ as it was. -/
theorem test_encq_fits :
    view (fun t => (memRead t .outbound 0 10, t.outLen)) (exec .encq
      { outbound [0x01#8, 0x02#8] base with params := ⟨64#16, 10#16, 0#16, false⟩ })
      = some ([0x80#8, 0x00#8, 0x00#8, 0x00#8, 0x00#8, 0x01#8, 0x00#8, 0x00#8, 0x01#8, 0x02#8], 10#16) := by
  decide

/-- V42: a request to a multicast address leaves O_LOCAL unspecified; an odd payload. -/
theorem test_encr_multicast :
    view (fun t => (memRead t .outbound 0 11, t.oLocal, t.oPeer)) (exec .encr
      { inbound [0x80#8, 0x00#8, 0x3E#8, 0x0A#8, 0x00#8, 0x01#8, 0x00#8, 0x07#8, 0x11#8, 0x22#8, 0x33#8] base
        with iLocal := addrM, echoEn := true })
      = some ([0x81#8, 0x00#8, 0x00#8, 0x00#8, 0x00#8, 0x01#8, 0x00#8, 0x07#8, 0x11#8, 0x22#8, 0x33#8],
          0#128, addrA) := by decide

/-- V48: the allocation is tried before the length is looked at. -/
theorem test_encr_busy_before_length :
    view (fun t => (t.logNobuf, t.res)) (exec .encr
      { inbound [0x80#8, 0x00#8, 0x82#8, 0xB9#8, 0x00#8, 0x01#8] base with echoEn := true, outBusy := true })
      = some (true, 0x00#8) := by decide

/-- V50. -/
theorem test_rx_echo_request :
    view (fun t => (memRead t .outbound 0 12, t.res, t.acc)) (exec .rx { inbound request base with echoEn := true })
      = some ([0x81#8, 0x00#8, 0x00#8, 0x00#8, 0x00#8, 0x01#8, 0x00#8, 0x01#8, 0xDE#8, 0xAD#8, 0xBE#8, 0xEF#8],
          0x10#8, 0xFFFF#16) := by decide

/-- V60: the unreachable route is not gated by ECHO_EN and moves the cursor by 4. -/
theorem test_rx_unreachable :
    view (fun t => (t.res, t.inOff, t.acc)) (exec .rx
      (inbound [0x01#8, 0x00#8, 0x67#8, 0x74#8, 0x60#8, 0x00#8, 0x00#8, 0x00#8, 0x00#8, 0x00#8, 0x3A#8, 0x40#8]
        base)) = some (0x30#8, 4#16, 0xFFFF#16) := by decide

/-- V70. -/
theorem test_alloc :
    view (fun t => (t.outBusy, t.outLen, t.outOff, t.res)) (exec .alloc
      { base with outLen := 9#16, outOff := 2#16 }) = some (true, 0#16, 0#16, 0x00#8) := by decide

/-- V71. -/
theorem test_alloc_nobufs :
    view (fun t => (t.outLen, t.res)) (exec .alloc { base with outBusy := true, outLen := 9#16 })
      = some (9#16, 0x01#8) := by decide

/-- V72. -/
theorem test_rel : view (fun t => (t.outBusy, t.res)) (exec .rel { base with outBusy := true })
    = some (false, 0x00#8) := by decide

/-- V73, then V75's kind: the frozen block takes no further command. -/
theorem test_rel_nomsg : view (fun t => (t.fcode, t.fcmd)) (exec .rel base)
      = some (0x03#8, 0x2100000000000000#64) ∧
    view id (exec .alloc (landed (exec .rel base))) = some (landed (exec .rel base)) := by decide

/-! ## The host's accesses -/

/-- V74: an all-zero word faults; STATUS is then 0x08. -/
theorem test_zero_word : view (fun t => (t.fcode, t.fcmd, t.res, statusByte t))
    (step { base with script := [.wr 0x00#8 0#64] }) = some (0x01#8, 0#64, 0x03#8, 0x08#8) := by decide

/-- V76 and V77. -/
theorem test_regacc : view (fun t => (t.fcode, t.fcmd)) (step { base with script := [.wr 0x06#8 7#16] })
      = some (0x06#8, 0x0000000000000006#64) ∧
    view (fun t => (t.fcode, t.fcmd)) (step { base with script := [.rd 0x00#8] }) = some (0x06#8, 0#64) := by
  decide

/-- V78 and V79. -/
theorem test_bufacc : view (fun t => (t.fcode, t.fcmd)) (step { base with script := [.wrb .inbound 64#16 0xAA#8] })
      = some (0x07#8, 0x0000000000000040#64) ∧
    view (fun t => (t.fcode, t.fcmd)) (step { base with script := [.rdb .outbound 64#16] })
      = some (0x07#8, 0x0000000000010040#64) := by decide

/-- V80: one write, one read. -/
theorem test_echo_enable : view (·.echoEn) (step { base with script := [setEchoEnabled true] }) = some true ∧
    view (·.readout) (step { base with echoEn := true, script := [isEchoEnabled] }) = some (some 1#128) := by
  decide

/-- V81, and the STATUS of P4's step 6: ALL1, OUT_BUSY and LOG_NOBUF. -/
theorem test_status : view (·.readout) (step { base with script := [.rd 0x02#8] }) = some (some 0#128) ∧
    view (·.readout) (step { base with script := [.rd 0x07#8] }) = some (some 1#128) ∧
    view (·.readout) (step { base with acc := 0xFFFF#16, outBusy := true, logNobuf := true,
                                       script := [.rd 0x02#8] }) = some (some 7#128) := by decide

/-- P5's steps 4 and 5: a frozen block answers reads, and RESET unfreezes it. -/
theorem test_frozen : view (·.readout) (step { base with fault := true, fcode := 0x03#8, script := [.rd 0x03#8] })
      = some (some 3#128) ∧
    view (fun t => (t.fault, t.fcode, t.res)) (step { base with fault := true, fcode := 0x03#8, res := 0x03#8,
                                                                script := [.reset] })
      = some (false, 0x00#8, 0x00#8) := by decide

/-- Equal memories are equal data: the order of two writes leaves no trace. -/
theorem test_memory_canonical : memWrite (memWrite base .inbound 9 [0xAA#8]) .inbound 3 [0xBB#8]
    = memWrite (memWrite base .inbound 3 [0xBB#8]) .inbound 9 [0xAA#8] := by decide

/-! ## Witnesses: for every statement with hypotheses, a case that meets them together -/

/-- A block with a request that verifies and echo-serving on. -/
def served : State := { inbound request base with echoEn := true }

/-- A block that owns a finished 12-byte message with its addresses set. -/
def owning : State := { outbound request base with oPeer := addrB, oLocal := addrA }

/-- A frozen block. -/
def frozen : State := { base with fault := true, fcode := 0x03#8, fcmd := 0x2100000000000000#64, res := 0x03#8 }

/-- The unreachable message of V52. -/
def unreachable : List Byte :=
  [0x01#8, 0x00#8, 0x67#8, 0x74#8, 0x60#8, 0x00#8, 0x00#8, 0x00#8, 0x00#8, 0x00#8, 0x3A#8, 0x40#8]

theorem witness_ResetActionRestoresEveryPieceOfState :
    ({ frozen with script := [.reset] } : State).script = .reset :: [] := rfl

theorem witness_OnlyResetClearsFault :
    step { frozen with script := [.reset] } = .next (landed (step { frozen with script := [.reset] })) ∧
    ({ frozen with script := [.reset] } : State).fault = true ∧
    (landed (step { frozen with script := [.reset] })).fault = false := ⟨rfl, rfl, rfl⟩

theorem witness_IdleBlockHoldsItsState : base.script = [] := rfl

theorem witness_StepRunsTheDecodedCommand :
    Working { served with script := [commandAction .rx] } ∧
    ({ served with script := [commandAction .rx] } : State).script = .wr 0x00#8 (encode .rx) :: [] ∧
    decode (encode .rx) = .instr .rx := ⟨rfl, rfl, by decide⟩

/-- Both clauses at their edges: opcodes 0x00, 0x04 and 0x22 beside assigned ones; bits 0, 17, 47, 49 and 55. -/
theorem witness_WordOutsideTheTableFaults :
    Working { base with script := [.wr 0x00#8 0#64] } ∧
    (∀ w ∈ [0x0000000000000000#64, 0x0400000000000000#64, 0x2200000000000000#64],
      w.extractLsb' 56 8 ∉ [0x01#8, 0x02#8, 0x03#8, 0x10#8, 0x11#8, 0x12#8, 0x20#8, 0x21#8]) ∧
    (∀ w ∈ [0x1200000000000001#64, 0x0100000000020000#64, 0x0100800000000000#64, 0x0202000000000000#64,
            0x2180000000000000#64],
      w.extractLsb' 56 8 ∈ [0x01#8, 0x02#8, 0x03#8, 0x10#8, 0x11#8, 0x12#8, 0x20#8, 0x21#8] ∧
      w &&& mustBeZero (w.extractLsb' 56 8) ≠ 0#64) :=
  ⟨rfl, fun w hw => by fin_cases hw <;> decide, fun w hw => by fin_cases hw <;> decide⟩

theorem witness_EncodeOfDecodeIsTheWord : decode 0x02010000FFFF8000#64 = .instr (.fold .outbound 65535#16 32768#16) := by
  decide

theorem witness_DecoderFollowsTheOpcodeTable :
    (⟨"SEED", 0x0100000000000000#64, 0xFF00FFFFFFFE0000#64⟩ : OpcodeRow) ∈ opcodeRows ∧
    (⟨"SEED", 0x0100000000000000#64, 0xFF00FFFFFFFE0000#64⟩ : OpcodeRow).selects 0x01FF00000001FFFF#64 = true ∧
    decode 0x01FF00000001FFFF#64 = .instr (.seed .outbound 0xFF#8 0xFFFF#16) := by decide

theorem witness_OnesComplementSumIgnoresOrder :
    0x0001#16 ≠ 0x0000#16 ∧ [0x0001#16, 0xFFFF#16].Perm [0xFFFF#16, 0x0001#16] := by decide

theorem witness_OnesComplementSumClosedForm :
    reduceOnce^[1] ((0xFFFF#16).toNat + wordTotal [0x0001#16]) ≤ 0xFFFF ∧
    reduceOnce^[0] ((0x0000#16).toNat + wordTotal [0xFFFF#16]) ≤ 0xFFFF := by decide

theorem witness_WordsPairBytesHighFirst : 1 < ([0x01#8, 0x02#8, 0x03#8].length + 1) / 2 := by decide

theorem witness_SeedSumsThePseudoHeader : 1#8 ≠ 0#8 := by decide

theorem witness_FoldSplitsAtEvenLengths :
    ∃ s1 s2, Working served ∧ Owned served .inbound ∧ MsgOk served .inbound ∧
      (0#16).toNat + (4#16).toNat + (8#16).toNat ≤ (lenOf served .inbound).toNat ∧ (4#16).toNat % 2 = 0 ∧
      exec (.fold .inbound 0#16 4#16) served = .next s1 ∧
      exec (.fold .inbound (0#16 + 4#16) 8#16) s1 = .next s2 := by
  refine ⟨_, _, rfl, by simp [Owned], ⟨by decide, by decide⟩, by decide, by decide,
    exec_fold rfl (by simp [Owned]) ⟨by decide, by decide⟩ ?_,
    exec_fold rfl (by simp [Owned]) ⟨by decide, by decide⟩ ?_⟩ <;> simp only [RangeOk] <;> decide

theorem witness_CorruptedByteIsCaught :
    0xDF#8 ≠ 0xDE#8 ∧ foldBytes 0xFD4A#16 (request.take 8 ++ 0xDE#8 :: request.drop 9) = 0xFFFF#16 ∧
    ocSum 0xFFFE#16 ([0x0001#16] ++ 0x0000#16 :: []) = 0xFFFF#16 := by decide

theorem witness_SeedPutsTheSeedIntoAcc : Working base := rfl

/-- The longest range, and the empty one at the end, of both messages. -/
theorem witness_FoldAddsTheRangeIntoAcc :
    Working served ∧ Owned served .inbound ∧ MsgOk served .inbound ∧ RangeOk served .inbound 0#16 12#16 ∧
    RangeOk served .inbound 12#16 0#16 ∧
    Working owning ∧ Owned owning .outbound ∧ MsgOk owning .outbound ∧ RangeOk owning .outbound 0#16 12#16 :=
  ⟨rfl, by simp [Owned], ⟨by decide, by decide⟩, by simp only [RangeOk]; decide, by simp only [RangeOk]; decide,
    rfl, fun _ => rfl, ⟨by decide, by decide⟩, by simp only [RangeOk]; decide⟩

/-- The shortest legal range, at the end of the message; for TxsumThenFoldGivesAllOnes too. -/
theorem witness_TxsumWritesTheChecksumField :
    Working owning ∧ Owned owning .outbound ∧ MsgOk owning .outbound ∧ RangeOk owning .outbound 8#16 4#16 ∧
    4 ≤ (4#16).toNat :=
  ⟨rfl, fun _ => rfl, ⟨by decide, by decide⟩, by simp only [RangeOk]; decide, by decide⟩

theorem witness_TxsumThenFoldGivesAllOnes :
    Working served ∧ Owned served .inbound ∧ MsgOk served .inbound ∧ RangeOk served .inbound 0#16 12#16 ∧
    4 ≤ (12#16).toNat :=
  ⟨rfl, by simp [Owned], ⟨by decide, by decide⟩, by simp only [RangeOk]; decide, by decide⟩

/-- The sender A of P2 and the receiver B of P1, whose buffer holds the bytes the sender finished. -/
theorem witness_FinishedDatagramVerifiesAtTheReceiver :
    Working owning ∧ owning.outBusy = true ∧ MsgOk owning .outbound ∧ owning.outLen = 12#16 ∧
    4 ≤ (12#16).toNat ∧ Working served ∧ MsgOk served .inbound ∧
    served.inLen.toNat = served.inOff.toNat + (12#16).toNat ∧ served.iPeer = owning.oLocal ∧
    served.iLocal = owning.oPeer ∧
    ∀ k, k < (12#16).toNat → readByte served .inbound (served.inOff.toNat + k) =
      readByte (landed (exec (.txsum .outbound 0#16 12#16)
        (landed (exec (.seed .outbound Config.nhIcmpv6 12#16) owning)))) .outbound k :=
  ⟨rfl, rfl, ⟨by decide, by decide⟩, rfl, by decide, rfl, ⟨by decide, by decide⟩, by decide, rfl, rfl,
    by decide⟩

/-- Each clause once: OUT not owned; a cursor one past the length; a range one past the end; TXSUM of 3
bytes. -/
theorem witness_RangeCommandsFaultInOrder :
    (Working base ∧ ¬ Owned base .outbound) ∧
    (Working { owning with outOff := 13#16 } ∧ Owned { owning with outOff := 13#16 } .outbound ∧
      ¬ MsgOk { owning with outOff := 13#16 } .outbound) ∧
    (Owned owning .outbound ∧ MsgOk owning .outbound ∧ ¬ RangeOk owning .outbound 1#16 12#16) ∧
    (Owned owning .outbound ∧ MsgOk owning .outbound ∧ (3#16).toNat < 4) := by
  refine ⟨⟨rfl, fun h => absurd (h rfl) (by decide)⟩, ⟨rfl, fun _ => rfl, fun h => absurd h.1 (by decide)⟩,
    ⟨fun _ => rfl, ⟨by decide, by decide⟩, ?_⟩, fun _ => rfl, ⟨by decide, by decide⟩, by decide⟩
  simp only [RangeOk]
  decide

theorem witness_PseudoCommandsVerifyAndFinish :
    (Working served ∧ MsgOk served .inbound ∧ RangeOk served .inbound 0#16 12#16) ∧
    (Working owning ∧ owning.outBusy = true ∧ MsgOk owning .outbound ∧ RangeOk owning .outbound 0#16 12#16 ∧
      4 ≤ (12#16).toNat) :=
  ⟨⟨rfl, ⟨by decide, by decide⟩, by simp only [RangeOk]; decide⟩, rfl, rfl, ⟨by decide, by decide⟩,
    by simp only [RangeOk]; decide, by decide⟩

/-- A message that fits exactly. -/
theorem witness_EncqPrependsTheRequestHeader :
    ∃ s : State, Working s ∧ s.outBusy = true ∧ MsgOk s .outbound ∧
      s.outLen.toNat + 8 = s.params.outCap.toNat :=
  ⟨{ base with outBusy := true, outLen := 56#16 }, rfl, rfl, ⟨by decide, by decide⟩, by decide⟩

/-- One byte too long. -/
theorem witness_EncqWithoutHeadroomOnlyStepsSeq :
    ∃ s : State, Working s ∧ s.outBusy = true ∧ MsgOk s .outbound ∧
      s.params.outCap.toNat < s.outLen.toNat + 8 :=
  ⟨{ base with outBusy := true, outLen := 57#16 }, rfl, rfl, ⟨by decide, by decide⟩, by decide⟩

theorem witness_EncqFaultsWithoutAGoodMessage :
    (Working base ∧ base.outBusy = false) ∧
    (Working { owning with outOff := 13#16 } ∧ ({ owning with outOff := 13#16 } : State).outBusy = true ∧
      ¬ MsgOk { owning with outOff := 13#16 } .outbound) :=
  ⟨⟨rfl, rfl⟩, rfl, rfl, fun h => absurd h.1 (by decide)⟩

/-- A request of 12 bytes in a buffer of 64, and one of the least length 8. -/
theorem witness_EncrEncodesTheReply :
    (Working served ∧ MsgOk served .inbound ∧ served.echoEn = true ∧ served.outBusy = false ∧
      8 ≤ served.inLen.toNat - served.inOff.toNat ∧
      served.inLen.toNat - served.inOff.toNat ≤ served.params.outCap.toNat) ∧
    ∃ s : State, Working s ∧ MsgOk s .inbound ∧ s.echoEn = true ∧ s.outBusy = false ∧
      s.inLen.toNat - s.inOff.toNat = 8 ∧ s.params.outCap.toNat = 8 :=
  ⟨⟨rfl, ⟨by decide, by decide⟩, rfl, rfl, by decide, by decide⟩,
    { served with inOff := 4#16, params := ⟨64#16, 8#16, 0#16, false⟩ }, rfl, ⟨by decide, by decide⟩, rfl, rfl,
    by decide, by decide⟩

theorem witness_EncrDisabledDoesNothing :
    ∃ s : State, Working s ∧ MsgOk s .inbound ∧ s.echoEn = false :=
  ⟨inbound request base, rfl, ⟨by decide, by decide⟩, rfl⟩

/-- Each clause: OUT owned; 7 bytes; one byte more than OUT_CAP. -/
theorem witness_EncrWithoutAReplyLogsOrDrops :
    (∃ s : State, Working s ∧ MsgOk s .inbound ∧ s.echoEn = true ∧ s.outBusy = true) ∧
    (∃ s : State, Working s ∧ MsgOk s .inbound ∧ s.echoEn = true ∧ s.outBusy = false ∧
      s.inLen.toNat - s.inOff.toNat = 7) ∧
    (∃ s : State, Working s ∧ MsgOk s .inbound ∧ s.echoEn = true ∧ s.outBusy = false ∧
      8 ≤ s.inLen.toNat - s.inOff.toNat ∧ s.params.outCap.toNat + 1 = s.inLen.toNat - s.inOff.toNat) :=
  ⟨⟨{ served with outBusy := true }, rfl, ⟨by decide, by decide⟩, rfl, rfl⟩,
    ⟨{ served with inOff := 5#16 }, rfl, ⟨by decide, by decide⟩, rfl, rfl, by decide⟩,
    ⟨{ served with params := ⟨64#16, 11#16, 0#16, false⟩ }, rfl, ⟨by decide, by decide⟩, rfl, rfl, by decide,
      by decide⟩⟩

/-- A cursor one past the length, and a length one past the capacity. -/
theorem witness_MalformedInboundMessageFaults :
    (Working { base with inLen := 4#16, inOff := 5#16 } ∧ ¬ MsgOk { base with inLen := 4#16, inOff := 5#16 } .inbound) ∧
    (Working { base with inLen := 65#16 } ∧ ¬ MsgOk { base with inLen := 65#16 } .inbound) :=
  ⟨⟨rfl, fun h => absurd h.1 (by decide)⟩, rfl, fun h => absurd h.2 (by decide)⟩

theorem witness_RxDropsShortMessages :
    ∃ s : State, Working s ∧ MsgOk s .inbound ∧ s.inLen.toNat - s.inOff.toNat = 3 :=
  ⟨{ served with inOff := 9#16 }, rfl, ⟨by decide, by decide⟩, by decide⟩

theorem witness_RxSumsAsSeedThenFold :
    Working served ∧ MsgOk served .inbound ∧ served.inOff.toNat + (12#16).toNat = served.inLen.toNat ∧
      4 ≤ (12#16).toNat := ⟨rfl, ⟨by decide, by decide⟩, by decide, by decide⟩

/-- V51. -/
theorem witness_RxDropsBadChecksums :
    ∃ s : State, Working s ∧ MsgOk s .inbound ∧ 4 ≤ s.inLen.toNat - s.inOff.toNat ∧
      inboundFold s ≠ 0xFFFF#16 :=
  ⟨memWrite served .inbound 8 [0xDF#8], rfl, ⟨by decide, by decide⟩, by decide, by decide⟩

/-- V50, with the conditions of its second part. -/
theorem witness_RxAnswersAVerifiedEchoRequest :
    Working served ∧ MsgOk served .inbound ∧ 4 ≤ served.inLen.toNat - served.inOff.toNat ∧
      inboundFold served = 0xFFFF#16 ∧ readByte served .inbound served.inOff.toNat = 128#8 ∧
      served.echoEn = true ∧ served.outBusy = false ∧ 8 ≤ served.inLen.toNat - served.inOff.toNat ∧
      served.inLen.toNat - served.inOff.toNat ≤ served.params.outCap.toNat :=
  ⟨rfl, ⟨by decide, by decide⟩, by decide, by decide, by decide, rfl, rfl, by decide, by decide⟩

/-- V57. -/
theorem witness_RxDeliversAVerifiedEchoReply :
    ∃ s : State, Working s ∧ MsgOk s .inbound ∧ 4 ≤ s.inLen.toNat - s.inOff.toNat ∧
      inboundFold s = 0xFFFF#16 ∧ readByte s .inbound s.inOff.toNat = 129#8 ∧ s.echoEn = true ∧
      s.rhSet = true :=
  ⟨{ memWrite served .inbound 0 [0x81#8, 0x00#8, 0xE4#8] with rhSet := true }, rfl, ⟨by decide, by decide⟩,
    by decide, by decide, by decide, rfl, rfl⟩

/-- V60. -/
theorem witness_RxHandsOnAnUnreachable :
    Working (inbound unreachable base) ∧ MsgOk (inbound unreachable base) .inbound ∧
      4 ≤ (inbound unreachable base).inLen.toNat - (inbound unreachable base).inOff.toNat ∧
      inboundFold (inbound unreachable base) = 0xFFFF#16 ∧
      readByte (inbound unreachable base) .inbound (inbound unreachable base).inOff.toNat = 1#8 :=
  ⟨rfl, ⟨by decide, by decide⟩, by decide, by decide, by decide⟩

/-- V53: type 200, exactly the least length. -/
theorem witness_RxIgnoresOtherTypes :
    ∃ s : State, Working s ∧ MsgOk s .inbound ∧ s.inLen.toNat - s.inOff.toNat = 4 ∧
      inboundFold s = 0xFFFF#16 ∧ readByte s .inbound s.inOff.toNat ∉ [128#8, 129#8, 1#8] :=
  ⟨inbound [0xC8#8, 0x00#8, 0x3A#8, 0xBC#8] base, rfl, ⟨by decide, by decide⟩, by decide, by decide, by decide⟩

/-- Two states that differ in the byte before the cursor and in the first one past the message. -/
theorem witness_InboundCommandsReadOnlyTheMessage :
    ∃ s s' t t' : State, s ≠ s' ∧ { s' with inMem := s.inMem } = s ∧
      (∀ k, s.inOff.toNat ≤ k → k < s.inLen.toNat → readByte s' .inbound k = readByte s .inbound k) ∧
      exec .rx s = .next t ∧ exec .rx s' = .next t' := by
  refine ⟨{ served with inOff := 1#16 },
    memWrite (memWrite { served with inOff := 1#16 } .inbound 0 [0xAA#8]) .inbound 12 [0xBB#8], _, _, by decide,
    rfl, ?_, rfl, rfl⟩
  intro k h1 h2
  rw [readByte_memWrite, readByte_memWrite]
  have h1 : 1 ≤ k := h1
  have h2 : k < 12 := h2
  simp [show ¬ 12 ≤ k by omega, show ¬ k < 1 by omega]

theorem witness_AllocTakesTheOutboundBuffer :
    (Working base ∧ base.outBusy = false) ∧ (Working owning ∧ owning.outBusy = true) :=
  ⟨⟨rfl, rfl⟩, rfl, rfl⟩

theorem witness_RelReleasesTheOutboundBuffer :
    (Working owning ∧ owning.outBusy = true) ∧ (Working base ∧ base.outBusy = false) :=
  ⟨⟨rfl, rfl⟩, rfl, rfl⟩

theorem witness_CommandFaultsArePrecise :
    Working base ∧ exec .rel base = .next (landed (exec .rel base)) ∧ (landed (exec .rel base)).fault = true :=
  ⟨rfl, rfl, rfl⟩

theorem witness_FrozenBlockIgnoresWrites :
    (({ frozen with script := [commandAction .alloc] } : State).fault = true ∧
      ∃ n v, commandAction .alloc = .wr n v) ∧
    (({ frozen with script := [.wrb .outbound 65535#16 1#8] } : State).fault = true ∧
      ∃ sp i v, HostAction.wrb .outbound 65535#16 1#8 = .wrb sp i v) :=
  ⟨⟨rfl, _, _, rfl⟩, rfl, _, _, _, rfl⟩

theorem witness_CommandsReturnTheirOwnResults :
    Working served ∧ exec .rx served = .next (landed (exec .rx served)) ∧ Working (landed (exec .rx served)) :=
  ⟨rfl, rfl, rfl⟩

theorem witness_HostWriteStoresTheValue : Working base := rfl

/-- The edges of the numbers the map gives no write: 0x01, 0x04, 0x06, 0x0B, 0x0F, 0x15, 0x1D, 0xFF. -/
theorem witness_HostWriteOfOtherRegistersFaults :
    Working base ∧ ∀ n ∈ [0x01#8, 0x04#8, 0x06#8, 0x07#8, 0x0B#8, 0x0F#8, 0x15#8, 0x17#8, 0x1D#8, 0xFF#8],
      n ∉ [0x00#8, 0x05#8, 0x08#8, 0x09#8, 0x0A#8, 0x10#8, 0x11#8, 0x12#8, 0x13#8, 0x14#8, 0x18#8, 0x19#8,
           0x1A#8, 0x1B#8, 0x1C#8] := ⟨rfl, by decide⟩

/-- The first and the last number of the map's three runs, and STATUS of a frozen block. -/
theorem witness_HostReadReturnsTheRegister :
    (0x01#8, 0) ∈ readTable base ∧ (0x0A#8, 0) ∈ readTable base ∧ (0x10#8, addrA.toNat) ∈ readTable served ∧
    (0x14#8, 0) ∈ readTable served ∧ (0x18#8, addrB.toNat) ∈ readTable owning ∧ (0x1C#8, 0) ∈ readTable owning ∧
    (0x02#8, 8) ∈ readTable frozen := by decide

/-- The edges of the numbers the map gives no read: 0x00, 0x0B, 0x0F, 0x15, 0x17, 0x1D, 0xFF; working and
frozen. -/
theorem witness_HostReadOfOtherNumbersFaults :
    Working base ∧ frozen.fault = true ∧ ∀ n ∈ [0x00#8, 0x0B#8, 0x0F#8, 0x15#8, 0x17#8, 0x1D#8, 0xFF#8],
      n ∉ [0x01#8, 0x02#8, 0x03#8, 0x04#8, 0x05#8, 0x06#8, 0x07#8, 0x08#8, 0x09#8, 0x0A#8, 0x10#8, 0x11#8,
           0x12#8, 0x13#8, 0x14#8, 0x18#8, 0x19#8, 0x1A#8, 0x1B#8, 0x1C#8] := ⟨rfl, rfl, by decide⟩

/-- The last byte of each buffer. -/
theorem witness_BufferPortReadsAndWritesOneByte :
    Working base ∧ (63#16).toNat < (capOf base .inbound).toNat ∧ (63#16).toNat < (capOf base .outbound).toNat :=
  ⟨rfl, by decide, by decide⟩

/-- The first index beyond each buffer; working and frozen. -/
theorem witness_BufferPortBeyondTheCapacityFaults :
    Working base ∧ (capOf base .inbound).toNat ≤ (64#16).toNat ∧
      (capOf base .outbound).toNat ≤ (64#16).toNat ∧ frozen.fault = true ∧
      (capOf frozen .inbound).toNat ≤ (64#16).toNat := ⟨rfl, by decide, by decide, rfl, by decide⟩

/-- A state with contents in both buffers, after a reply, meets the invariant, and a step goes on from it. -/
theorem witness_EveryStepKeepsTheInvariant :
    BlockInv { landed (exec .rx served) with script := [commandAction .rel] } ∧
    ∃ t, step { landed (exec .rx served) with script := [commandAction .rel] } = .next t :=
  ⟨⟨by decide, by decide, by decide, by decide, by decide, by decide, by decide, by decide, by decide⟩, _, rfl⟩

/-- The third case is met: an ENCQ that steps SEQ. -/
theorem witness_OnlyEncqChangesSeq :
    step { owning with script := [commandAction .encq] }
      = .next (landed (step { owning with script := [commandAction .encq] })) ∧
    (landed (step { owning with script := [commandAction .encq] })).seq ≠ owning.seq := ⟨rfl, by decide⟩

/-- Each mover once. -/
theorem witness_OutBusyHasFourMovers :
    (landed (step { base with script := [commandAction .alloc] })).outBusy ≠ base.outBusy ∧
    (landed (step { served with script := [commandAction .rx] })).outBusy ≠ served.outBusy ∧
    (landed (step { owning with script := [commandAction .rel] })).outBusy ≠ owning.outBusy ∧
    (landed (step { owning with script := [.reset] })).outBusy ≠ owning.outBusy := by decide

theorem witness_CommandsOnlySetTheLogBit :
    exec .encr { served with outBusy := true } = .next (landed (exec .encr { served with outBusy := true })) ∧
    (landed (exec .encr { served with outBusy := true })).logNobuf
      ≠ ({ served with outBusy := true } : State).logNobuf := ⟨rfl, by decide⟩

theorem witness_CommandsLeaveTheHostsRegisters :
    exec .encr served = .next (landed (exec .encr served)) ∧ Instr.encr ≠ Instr.rx := ⟨rfl, by decide⟩

theorem witness_OnlyTxsumOfInWritesIn :
    exec (.txsum .outbound 0#16 12#16) owning = .next (landed (exec (.txsum .outbound 0#16 12#16) owning)) ∧
    ∀ off len, Instr.txsum .outbound 0#16 12#16 ≠ .txsum .inbound off len := ⟨rfl, by simp⟩

theorem witness_StepsKeepTheParameters :
    step { frozen with script := [.reset] } = .next (landed (step { frozen with script := [.reset] })) := rfl

theorem witness_EncodersLeaveNoUnwrittenByte :
    Working served ∧ exec .rx served = .next (landed (exec .rx served)) ∧
      (landed (exec .rx served)).res = 0x10#8 ∧ 11 < (landed (exec .rx served)).outLen.toNat :=
  ⟨rfl, rfl, by decide, by decide⟩

end Sys2Proof.Machine.Tests
end

section
/-! The word a decoded command was read from: decoding a word gives a command whose encoded word it is
(R62 to R66). -/

namespace Sys2Proof

/-- A word of format Z is its opcode over zeros (R62). -/
theorem encodeZ_of_decodeZ {i j : Instr} {w : BitVec 64} (h : decodeZ i w = .instr j) :
    i = j ∧ encodeZ (fieldOp w) = w := by
  unfold decodeZ at h
  split at h
  case isFalse => cases h
  case isTrue hz =>
    obtain ⟨h1, h2, h3, h4⟩ := hz
    refine ⟨Decoded.instr.inj h, BitVec.eq_of_toNat_eq ?_⟩
    have h1 := congrArg BitVec.toNat h1
    have h2 := congrArg BitVec.toNat h2
    have h3 := congrArg BitVec.toNat h3
    have h4 := congrArg BitVec.toNat h4
    simp only [fieldSel, fieldZero, fieldX, fieldY, toNat_extract_eq, BitVec.toNat_ofNat] at h1 h2 h3 h4
    have := w.isLt
    simp only [toNat_encodeZ, fieldOp, toNat_extract_eq]
    omega

/-- A word of format R is its opcode and its three operands over zeros (R64). -/
theorem encodeR_of_decodeR {mk : Side → BitVec 16 → BitVec 16 → Instr} {j : Instr} {w : BitVec 64}
    (h : decodeR mk w = .instr j) :
    ∃ buf off len, mk buf off len = j ∧ encodeR (fieldOp w) buf off len = w := by
  unfold decodeR at h
  split at h
  case isFalse => cases h
  case isTrue hz =>
    obtain ⟨h1, h2⟩ := hz
    refine ⟨_, _, _, Decoded.instr.inj h, BitVec.eq_of_toNat_eq ?_⟩
    have h1 := congrArg BitVec.toNat h1
    have h2 := congrArg BitVec.toNat h2
    simp only [fieldRangeZero, fieldZero, toNat_extract_eq, BitVec.toNat_ofNat] at h1 h2
    have := w.isLt
    simp only [toNat_encodeR, sideBit_sideOfBit, fieldOp, fieldX, fieldY, toNat_extract_eq]
    omega

/-- A word of format S with SEED's opcode is the word of its command (R63). -/
theorem encode_of_decodeS {i : Instr} {w : BitVec 64} (ho : fieldOp w = 0x01#8)
    (h : decodeS w = .instr i) : encode i = w := by
  unfold decodeS at h
  split at h
  case isFalse => cases h
  case isTrue hz =>
    obtain ⟨h1, h2⟩ := hz
    obtain rfl := Decoded.instr.inj h
    refine BitVec.eq_of_toNat_eq ?_
    have h0 := congrArg BitVec.toNat ho
    have h1 := congrArg BitVec.toNat h1
    have h2 := congrArg BitVec.toNat h2
    simp only [fieldOp, fieldZero, fieldSeedZero, toNat_extract_eq, BitVec.toNat_ofNat] at h0 h1 h2
    have := w.isLt
    simp only [toNat_encode_seed, sideBit_sideOfBit, fieldSel, fieldY, toNat_extract_eq]
    omega

/-- A word that decodes to a command is that command's word: the opcode selects the row, and the row's format
leaves no bit free but the operands (R62 to R66). -/
theorem encode_of_decode {w : BitVec 64} {i : Instr} (h : decode w = .instr i) : encode i = w := by
  have range : ∀ (op : BitVec 8) (mk : Side → BitVec 16 → BitVec 16 → Instr),
      (∀ buf off len, encode (mk buf off len) = encodeR op buf off len) → fieldOp w = op →
      decodeR mk w = .instr i → encode i = w := by
    intro op mk hmk ho h
    obtain ⟨buf, off, len, rfl, hw⟩ := encodeR_of_decodeR h
    rw [hmk, ← ho, hw]
  have plain : ∀ (op : BitVec 8) (j : Instr), encode j = encodeZ op → fieldOp w = op →
      decodeZ j w = .instr i → encode i = w := by
    intro op j hj ho h
    obtain ⟨rfl, hw⟩ := encodeZ_of_decodeZ h
    rw [hj, ← ho, hw]
  unfold decode at h
  split_ifs at h with h1 h2 h3 h4 h5 h6 h7 h8
  · exact encode_of_decodeS h1 h
  · exact range _ .fold (fun _ _ _ => rfl) h2 h
  · exact range _ .txsum (fun _ _ _ => rfl) h3 h
  · exact plain _ .encq rfl h4 h
  · exact plain _ .encr rfl h5 h
  · exact plain _ .rx rfl h6 h
  · exact plain _ .alloc rfl h7 h
  · exact plain _ .rel rfl h8 h

end Sys2Proof
end

section
/-! The state after reset, and a command's step (R8, R13, R31). -/

namespace Sys2Proof.Machine

/-- The initial state for any parameters is at the reset values (R31). -/
theorem atReset_initial (p : Params) (e : Nat) : AtReset (State.initial p e) where
  acc := rfl
  all1 := rfl
  res := rfl
  fault := rfl
  fcode := rfl
  fcmd := rfl
  outBusy := rfl
  logNobuf := rfl
  seq := rfl
  ident := rfl
  echoEn := rfl
  rhSet := rfl
  addresses := ⟨rfl, rfl, rfl, rfl⟩
  ifids := ⟨rfl, rfl⟩
  descriptors := ⟨rfl, rfl, rfl, rfl⟩
  bytes sp _ := by cases sp <;> rfl

/-- Settles O1: the reset state is an initial state. -/
theorem resetHasTheSpecsValues : Obligations.ResetHasTheSpecsValues := atReset_initial _ _

/-- The free parameters of the reset state are in the ranges of R4. -/
theorem config_params_wf : Config.params.wf = true := by
  have hi := Config.inCapLessOne.isLt
  have ho := Config.outCapLessEight.isLt
  simp only [Params.wf, Config.params, BitVec.toNat_ofNat, Bool.and_eq_true, decide_eq_true_eq]
  omega

/-- The initial state for parameters in range meets the invariant: no buffer has a cell, RES
is 0x00 and no fault is recorded. -/
theorem blockInv_initial {p : Params} (hp : p.wf = true) (e : Nat) : BlockInv (State.initial p e) where
  paramsWf := hp
  inWf := rfl
  outWf := rfl
  inBelow := rfl
  outBelow := rfl
  resLegal := by simp [State.initial]
  faultCode := ⟨rfl, rfl⟩
  faultRes := by simp [State.initial]
  ownedResult := by simp [State.initial]

/-- Settles O52: the reset state is an initial state, and its parameters are in range. -/
theorem resetMeetsTheInvariant : Obligations.ResetMeetsTheInvariant :=
  blockInv_initial config_params_wf 0

/-- Settles O5: the word reaches `runWord`, whose decoded arm is the command. -/
theorem stepRunsTheDecodedCommand : Obligations.StepRunsTheDecodedCommand := by
  intro s w rest i hw hs hd
  rw [step_word hw hs]
  simp only [runWord, hd]

end Sys2Proof.Machine
end

section
/-! What commands and steps leave alone, read off `exec_effect` and `step_effect`. -/

namespace Sys2Proof.Machine

section

variable (buf : Side) (off len : BitVec 16) (s : State)

@[simp] theorem txsumEffect_inOff : (txsumEffect buf off len s).inOff = s.inOff := by cases buf <;> rfl
@[simp] theorem txsumEffect_seq : (txsumEffect buf off len s).seq = s.seq := by cases buf <;> rfl
@[simp] theorem txsumEffect_outBusy : (txsumEffect buf off len s).outBusy = s.outBusy := by cases buf <;> rfl
@[simp] theorem txsumEffect_logNobuf : (txsumEffect buf off len s).logNobuf = s.logNobuf := by
  cases buf <;> rfl

end

section

variable {i : Instr} {s t : State}

/-- The fields that no command writes: the host's registers and what the model adds to the block's state
(R11, R23 to R27). -/
theorem exec_frame (h : exec i s = .next t) :
    { t with
      acc := s.acc, oPeer := s.oPeer, oLocal := s.oLocal, oIfid := s.oIfid, inOff := s.inOff,
      outLen := s.outLen, outOff := s.outOff, seq := s.seq, res := s.res, outBusy := s.outBusy,
      logNobuf := s.logNobuf, fault := s.fault, fcode := s.fcode, fcmd := s.fcmd, inMem := s.inMem,
      outMem := s.outMem } = s := by
  cases exec_effect h with
  | txsum _ buf _ _ _ _ _ _ _ e => subst e; cases buf <;> rfl
  | _ => subst t; rfl

/-- Only a destination-unreachable message moves IN_OFF, and only RX hands it on (R166). -/
theorem exec_inOff (h : exec i s = .next t) (hi : i ≠ .rx) : t.inOff = s.inOff := by
  cases exec_effect h with
  | unreach _ _ hrx => exact absurd hrx hi
  | txsum _ _ _ _ _ _ _ _ _ e => subst e; simp
  | _ => subst t; rfl

/-- Only a TXSUM that names IN writes a byte of IN (R41, R99). -/
theorem exec_inMem (h : exec i s = .next t) (hi : ∀ off len, i ≠ .txsum .inbound off len) :
    t.inMem = s.inMem := by
  cases exec_effect h with
  | txsum _ buf off len hts _ _ _ _ e =>
    subst e
    cases buf
    · exact absurd hts (hi off len)
    · rfl
  | _ => subst t; rfl

/-- SEQ steps by one in an ENCQ that does not fault, and in no other command (R122). -/
theorem exec_seq (h : exec i s = .next t) :
    t.seq = s.seq ∨ (i = .encq ∧ t.fault = false ∧ t.seq = s.seq + 1#16) := by
  cases exec_effect h with
  | noroom hf hi _ e => subst e; exact .inr ⟨hi, hf, rfl⟩
  | request hf hi _ _ _ e => subst e; exact .inr ⟨hi, hf, rfl⟩
  | txsum _ _ _ _ _ _ _ _ _ e => subst e; simp
  | _ => subst t; exact .inl rfl

/-- OUT_BUSY moves by a reply, ALLOC and REL, and by no other command (R18). -/
theorem exec_outBusy (h : exec i s = .next t) :
    t.outBusy = s.outBusy ∨ (i = .alloc ∧ t.outBusy = true) ∨
      ((i = .encr ∨ i = .rx) ∧ t.outBusy = true ∧ t.res = 0x10#8) ∨ (i = .rel ∧ t.outBusy = false) := by
  cases exec_effect h with
  | alloc _ hi _ e => subst e; exact .inr (.inl ⟨hi, rfl⟩)
  | reply _ _ hi _ _ _ e => subst e; exact .inr (.inr (.inl ⟨hi, rfl, rfl⟩))
  | rel _ hi _ e => subst e; exact .inr (.inr (.inr ⟨hi, rfl⟩))
  | txsum _ _ _ _ _ _ _ _ _ e => subst e; simp
  | _ => subst t; exact .inl rfl

/-- LOG_NOBUF moves to 1 in an ENCR or RX that has no buffer for its reply, and in no other command (R19). -/
theorem exec_logNobuf (h : exec i s = .next t) :
    t.logNobuf = s.logNobuf ∨
      (t.logNobuf = true ∧ (i = .encr ∨ i = .rx) ∧ t.res = 0x00#8 ∧ t.outBusy = s.outBusy) := by
  cases exec_effect h with
  | log _ _ hi e => subst e; exact .inr ⟨rfl, hi, rfl, rfl⟩
  | txsum _ _ _ _ _ _ _ _ _ e => subst e; simp
  | _ => subst t; exact .inl rfl

/-- A step that is neither RESET nor a command of a working block leaves SEQ, OUT_BUSY and the parameters. -/
theorem step_reset_or_command (h : step s = .next t) :
    (t.seq = s.seq ∧ t.outBusy = s.outBusy ∧ t.params = s.params) ∨
    (∃ rest, s.script = .reset :: rest ∧ t = resetAction { s with script := rest }) ∨
    (∃ rest i, s.script = .wr 0x00#8 (encode i) :: rest ∧ Working s ∧
      exec i { s with script := rest } = .next t) := by
  cases step_effect h with
  | reset rest hs e => exact .inr (.inl ⟨rest, hs, e⟩)
  | command rest w i hs hf hd e => exact .inr (.inr ⟨rest, i, encode_of_decode hd ▸ hs, hf, e⟩)
  | register _ _ _ _ e =>
    obtain ⟨-, hp, hq, hb, -⟩ := writeReg_frame e
    exact .inl ⟨hq, hb, hp⟩
  | byte _ sp _ _ _ _ e => subst e; simp
  | _ => subst t; exact .inl ⟨rfl, rfl, rfl⟩

end

/-- Settles O54: a change of SEQ by a command is `exec_seq`'s, and ENCQ has one word. -/
theorem onlyEncqChangesSeq : Obligations.OnlyEncqChangesSeq := by
  intro s t h
  rcases step_reset_or_command h with ⟨hq, -, -⟩ | ⟨rest, hs, -⟩ | ⟨rest, i, hs, hw, e⟩
  · exact .inl hq
  · exact .inr (.inl ⟨rest, hs⟩)
  · rcases exec_seq e with hq | ⟨rfl, hf, hq⟩
    · exact .inl hq
    · exact .inr (.inr ⟨⟨rest, hs⟩, hw, hf, by rw [hq, BitVec.toNat_add]; rfl⟩)

/-- Settles O55: a change of OUT_BUSY by a command is `exec_outBusy`'s, and each mover has one word. -/
theorem outBusyHasFourMovers : Obligations.OutBusyHasFourMovers := by
  intro s t h hne
  rcases step_reset_or_command h with ⟨-, hb, -⟩ | ⟨rest, hs, rfl⟩ | ⟨rest, i, hs, -, e⟩
  · exact absurd hb hne
  · exact .inr (.inr (.inr ⟨rfl, rest, hs⟩))
  · rcases exec_outBusy e with hb | ⟨rfl, hb⟩ | ⟨rfl | rfl, hb, hr⟩ | ⟨rfl, hb⟩
    · exact absurd hb hne
    · exact .inl ⟨hb, rest, hs⟩
    · exact .inr (.inl ⟨hb, hr, rest, .inl hs⟩)
    · exact .inr (.inl ⟨hb, hr, rest, .inr hs⟩)
    · exact .inr (.inr (.inl ⟨hb, rest, hs⟩))

/-- Settles O56: a change of LOG_NOBUF by a command is `exec_logNobuf`'s. -/
theorem commandsOnlySetTheLogBit : Obligations.CommandsOnlySetTheLogBit :=
  fun _ _ _ h hne => (exec_logNobuf h).resolve_left hne

/-- Settles O57: the fields `exec_frame` leaves to the host, and IN_OFF by `exec_inOff`. -/
theorem commandsLeaveTheHostsRegisters : Obligations.CommandsLeaveTheHostsRegisters := by
  intro i s t h
  have frame := exec_frame h
  exact ⟨(congrArg State.iPeer frame :), (congrArg State.iLocal frame :), (congrArg State.iIfid frame :),
    (congrArg State.inLen frame :), (congrArg State.echoEn frame :), (congrArg State.rhSet frame :),
    exec_inOff h, (congrArg State.params frame :), (congrArg State.epoch frame :),
    (congrArg State.readout frame :), (congrArg State.script frame :)⟩

/-- Settles O59: RESET keeps the parameters, and so does every command. -/
theorem stepsKeepTheParameters : Obligations.StepsKeepTheParameters := by
  intro s t h
  rcases step_reset_or_command h with ⟨-, -, hp⟩ | ⟨_, -, rfl⟩ | ⟨_, _, -, -, e⟩
  · exact hp
  · rfl
  · exact (congrArg State.params (exec_frame e) :)

end Sys2Proof.Machine
end

section
/-! What RX and ENCR read of IN: the effect of either commutes with putting another memory under IN that reads
alike on the message (R27, R55). -/

namespace Sys2Proof.Machine

/-- The state with the memory `m` under IN. -/
def State.withIn (s : State) (m : Memory) : State := { s with inMem := m }

/-- The memory `m` put under IN reads as IN does on the message's bytes, from the cursor to the length. -/
def SameMessage (s : State) (m : Memory) : Prop :=
  ∀ k, s.inOff.toNat ≤ k → k < s.inLen.toNat → readByte (s.withIn m) .inbound k = readByte s .inbound k

section

variable (s : State) (m : Memory)

@[simp] theorem withIn_inOff : (s.withIn m).inOff = s.inOff := rfl

theorem withIn_ite (c : Prop) [Decidable c] (t : State) :
    (if c then s else t).withIn m = if c then s.withIn m else t.withIn m :=
  apply_ite (State.withIn · m) c s t

/-- The bytes of OUT after a reply is built: the header, then two copies from IN (R144, R145). -/
theorem buildReply_outMem (n : Nat) :
    (buildReply n s).outMem =
      ⟨insertCells 8 (memRead s .inbound (s.inOff.toNat + 8) (n - 8))
        (insertCells 4 (memRead s .inbound (s.inOff.toNat + 4) 4)
          (insertCells 0 [Config.typeEchoReply, 0x00#8, 0x00#8, 0x00#8] s.outMem.cells))⟩ := rfl

end

section

variable {s t e : State} {m : Memory}

/-- A range within the message reads alike (R55). -/
theorem SameMessage.memRead_eq (hm : SameMessage s m) {a n : Nat} (ha : s.inOff.toNat ≤ a)
    (hn : a + n ≤ s.inLen.toNat) : memRead (s.withIn m) .inbound a n = memRead s .inbound a n :=
  memRead_congr fun k hk => hm (a + k) (by omega) (by omega)

/-- A reply of the message's length copies bytes of the message only (R145). -/
theorem buildReply_withIn (hm : SameMessage s m) (h8 : 8 ≤ s.inLen.toNat - s.inOff.toNat) :
    buildReply (s.inLen.toNat - s.inOff.toNat) (s.withIn m) =
      (buildReply (s.inLen.toNat - s.inOff.toNat) s).withIn m := by
  have hout : (buildReply (s.inLen.toNat - s.inOff.toNat) (s.withIn m)).outMem =
      (buildReply (s.inLen.toNat - s.inOff.toNat) s).outMem := by
    rw [buildReply_outMem, buildReply_outMem, withIn_inOff, hm.memRead_eq (by omega) (by omega),
      hm.memRead_eq (by omega) (by omega)]
    rfl
  calc buildReply (s.inLen.toNat - s.inOff.toNat) (s.withIn m)
      = { (buildReply (s.inLen.toNat - s.inOff.toNat) s).withIn m with
          outMem := (buildReply (s.inLen.toNat - s.inOff.toNat) (s.withIn m)).outMem } := rfl
    _ = (buildReply (s.inLen.toNat - s.inOff.toNat) s).withIn m := by rw [hout]; rfl

/-- The steps of ENCR after its check read of IN the message only (R140 to R149). -/
theorem encodeReply_withIn (hm : SameMessage s m) :
    encodeReply (s.withIn m) = (encodeReply s).withIn m := by
  simp only [encodeReply, withIn_ite]
  exact ite_congr rfl (fun _ => rfl) fun _ => ite_congr rfl (fun _ => rfl) fun _ =>
    ite_congr rfl (fun _ => rfl) fun h8 => ite_congr rfl (fun _ => rfl) fun _ =>
      congrArg (finish .none .send) (buildReply_withIn hm (not_lt.mp h8))

/-- RX folds the message's bytes only (R160). -/
theorem inboundFold_withIn (hm : SameMessage s m) (h : s.inOff.toNat ≤ s.inLen.toNat) :
    inboundFold (s.withIn m) = inboundFold s :=
  congrArg (foldBytes _) (hm.memRead_eq (Nat.le_refl s.inOff.toNat) (Nat.add_sub_of_le h).le)

/-- Routing reads of IN the message only (R162 to R167). -/
theorem routeInbound_withIn (ty : BitVec 8) (hm : SameMessage s m) :
    routeInbound ty (s.withIn m) = (routeInbound ty s).withIn m := by
  simp only [routeInbound, withIn_ite]
  exact ite_congr rfl (fun _ => encodeReply_withIn hm) fun _ =>
    ite_congr rfl (fun _ => ite_congr rfl (fun _ => rfl) fun _ => rfl) fun _ =>
      ite_congr rfl (fun _ => rfl) fun _ => rfl

/-- The effect of RX reads of IN the message only (R155). -/
theorem rxEffect_withIn (hm : SameMessage s m) : rxEffect (s.withIn m) = (rxEffect s).withIn m := by
  simp only [rxEffect, withIn_ite]
  refine ite_congr rfl (fun _ => rfl) fun hlen => ?_
  have h4 : 4 ≤ s.inLen.toNat - s.inOff.toNat := not_lt.mp hlen
  have hlt : s.inOff.toNat < s.inLen.toNat := by omega
  rw [inboundFold_withIn hm hlt.le, withIn_inOff, hm _ (Nat.le_refl _) hlt]
  exact ite_congr rfl (fun _ => routeInbound_withIn (s := { s with acc := inboundFold s }) _ hm) fun _ => rfl

/-- A command whose effect is `e` is, with `m` under IN, one whose effect is `e` with `m` under IN. -/
theorem runCommand_withIn {i : Instr} {chk : Option Cause} (h : runCommand i chk e s = .next t) :
    runCommand i chk (e.withIn m) (s.withIn m) = .next (t.withIn m) := by
  rcases runCommand_cases h with ⟨hf, rfl⟩ | ⟨hf, c, rfl, rfl⟩ | ⟨hf, rfl, rfl⟩
  · simp [runCommand, State.withIn, hf]
  · exact runCommand_fault hf
  · exact runCommand_effect hf

/-- RX and ENCR commute with putting under IN a memory with the same message. -/
theorem exec_withIn {i : Instr} (hi : i = .rx ∨ i = .encr) (hm : SameMessage s m)
    (h : exec i s = .next t) : exec i (s.withIn m) = .next (t.withIn m) := by
  rcases hi with rfl | rfl
  · have hrun := runCommand_withIn (m := m) h
    rwa [← rxEffect_withIn hm] at hrun
  · have hrun := runCommand_withIn (m := m) h
    rwa [← encodeReply_withIn hm] at hrun

end

/-- Settles O40: the second state is the first with another memory under IN, and the command commutes with
that. -/
theorem inboundCommandsReadOnlyTheMessage : Obligations.InboundCommandsReadOnlyTheMessage := by
  intro i s s' t t' hi hs hk h h'
  have hs' : s.withIn s'.inMem = s' := by rw [← hs]; rfl
  have hm : SameMessage s s'.inMem := by rwa [SameMessage, hs']
  have ht := exec_withIn hi hm h
  rw [hs', h'] at ht
  obtain rfl := Host.Outcome.next.inj ht
  exact ⟨rfl, rfl, exec_inMem h fun _ _ => by rintro rfl; simp at hi⟩

end Sys2Proof.Machine
end

section
/-! What commands write of the two memories: IN by TXSUM only, and every byte of a message that is sent (R41,
R56, R123, R145). -/

namespace Sys2Proof.Machine

section

variable {s t : State}

/-- Two states with the same memory under a space and the same free bytes read alike in it. -/
theorem readByte_congr {sp : Side} (hm : memOf t sp = memOf s sp) (he : t.epoch = s.epoch) (k : Nat) :
    readByte t sp k = readByte s sp k := by
  simp only [readByte, hm, he]

/-- An address has a cell after a write where the write put one or one was there before. -/
theorem lookupCell_insertCells_ne_none {k a : Nat} {vs : List (BitVec 8)} {cs : List Host.Cell} :
    lookupCell k (insertCells a vs cs) ≠ none ↔
      (a ≤ k ∧ k < a + vs.length) ∨ lookupCell k cs ≠ none := by
  rw [lookupCell_insertCells]
  split
  case isTrue h =>
    have hk : k - a < vs.length := by omega
    simp [h, List.getElem?_eq_getElem hk]
  case isFalse h => simp only [h, false_or]

/-- A prepend writes the whole new message: the header and the old message moved up (R53, R56). -/
theorem prependOut_cell {h : List (BitVec 8)} {k : Nat} (hk : k < (prependOut s h).outLen.toNat) :
    lookupCell k (prependOut s h).outMem.cells ≠ none := by
  have hlen : (prependOut s h).outLen.toNat = (s.outLen.toNat + h.length % 2 ^ 16) % 2 ^ 16 := by
    simp [prependOut]
  have hcells : (prependOut s h).outMem.cells =
      insertCells 0 (h ++ memRead s .outbound 0 s.outLen.toNat) s.outMem.cells := rfl
  rw [hcells, lookupCell_insertCells_ne_none, List.length_append, length_memRead]
  omega

/-- A reply is written whole: its four header bytes, then the copies up to its length (R144, R145). -/
theorem buildReply_cell {n k : Nat} (hk : k < (buildReply n s).outLen.toNat) :
    lookupCell k (buildReply n s).outMem.cells ≠ none := by
  rw [buildReply_outLen, BitVec.toNat_ofNat] at hk
  simp only [buildReply_outMem, lookupCell_insertCells_ne_none, length_memRead, List.length_cons,
    List.length_nil]
  omega

/-- RES is 0x10 only for SEND without an error (R75). -/
theorem resByte_eq_send {e : Err} {a : Act} : resByte e a = 0x10#8 ↔ e = .none ∧ a = .send := by
  cases e <;> cases a <;> decide

end

/-- Settles O58: a command that is no TXSUM of IN keeps IN's memory by `exec_inMem`, and the free bytes by
`exec_frame`. -/
theorem onlyTxsumOfInWritesIn : Obligations.OnlyTxsumOfInWritesIn := by
  intro i s t h hi
  have hmem : t.inMem = s.inMem := exec_inMem h hi
  exact ⟨hmem, readByte_congr (sp := .inbound) hmem (congrArg State.epoch (exec_frame h) :)⟩

/-- Settles O60: only a prepended request and a built reply return SEND, and each writes its whole message. -/
theorem encodersLeaveNoUnwrittenByte : Obligations.EncodersLeaveNoUnwrittenByte := by
  intro i s t hw h hr k hk
  cases exec_effect h with
  | frozen hf => exact absurd (hw.symm.trans hf) Bool.false_ne_true
  | request _ _ _ _ _ e =>
    subst e
    simp only [finish_outLen, finish_outMem] at hk ⊢
    exact prependOut_cell hk
  | reply _ _ _ _ _ _ e =>
    subst e
    simp only [finish_outLen, finish_outMem] at hk ⊢
    exact buildReply_cell hk
  | _ => subst t; simp [resByte_eq_send] at hr

end Sys2Proof.Machine
end

section
/-! The decoder against the opcode table: each format's must-be-zero bits as a mask, what a word with an assigned
opcode decodes to, and the round trip from a command to its word and back (R61 to R67). -/

namespace Sys2Proof
open Machine

/-! ### Masks, field by field -/

section

variable {w m p : BitVec 64}

/-- A masked word is a pattern where each of its fields is; the fields are those of `word_ext`. -/
theorem and_eq_iff_fields :
    w &&& m = p ↔
      fieldOp w &&& fieldOp m = fieldOp p ∧ fieldRangeZero w &&& fieldRangeZero m = fieldRangeZero p ∧
      w.extractLsb' 48 1 &&& m.extractLsb' 48 1 = p.extractLsb' 48 1 ∧
      fieldZero w &&& fieldZero m = fieldZero p ∧ fieldSeedZero w &&& fieldSeedZero m = fieldSeedZero p ∧
      w.extractLsb' 16 1 &&& m.extractLsb' 16 1 = p.extractLsb' 16 1 ∧ fieldY w &&& fieldY m = fieldY p := by
  simp only [fieldOp, fieldRangeZero, fieldZero, fieldSeedZero, fieldY, ← BitVec.extractLsb'_and]
  constructor
  · rintro rfl
    exact ⟨rfl, rfl, rfl, rfl, rfl, rfl, rfl⟩
  · rintro ⟨h0, h1, h2, h3, h4, h5, h6⟩
    exact word_ext h0 h1 h2 h3 h4 h5 h6

/-- A field under a mask of ones is itself. -/
theorem and_ones {n : Nat} (x y : BitVec n) (h : y = BitVec.allOnes n) : x &&& y = x := by
  rw [h, BitVec.and_allOnes]

/-- The must-be-zero bits of format S (R63). -/
theorem seedZero_iff : w &&& 0x0000FFFFFFFE0000#64 = 0#64 ↔ fieldZero w = 0#16 ∧ fieldSeedZero w = 0#15 := by
  rw [and_eq_iff_fields]
  simp (disch := decide) [and_ones, fieldOp, fieldRangeZero, fieldZero, fieldSeedZero, fieldY]

/-- The must-be-zero bits of format R (R64). -/
theorem rangeZero_iff : w &&& 0x00FEFFFF00000000#64 = 0#64 ↔ fieldRangeZero w = 0#7 ∧ fieldZero w = 0#16 := by
  rw [and_eq_iff_fields]
  simp (disch := decide) [and_ones, fieldOp, fieldRangeZero, fieldZero, fieldSeedZero, fieldY]

/-- The must-be-zero bits of format Z, which are all below the opcode (R62). -/
theorem plainZero_iff : w &&& 0x00FFFFFFFFFFFFFF#64 = 0#64 ↔
    fieldSel w = 0#8 ∧ fieldZero w = 0#16 ∧ fieldX w = 0#16 ∧ fieldY w = 0#16 := by
  have hmod : (w &&& 0x00FFFFFFFFFFFFFF#64).toNat = w.toNat % 2 ^ 56 := Nat.and_two_pow_sub_one_eq_mod _ 56
  simp only [← BitVec.toNat_inj, hmod, fieldSel, fieldZero, fieldX, fieldY, toNat_extract_eq, BitVec.toNat_ofNat]
  omega

/-- The opcode byte alone, over zeros (R61). -/
theorem and_opMask (w : BitVec 64) : w &&& 0xFF00000000000000#64 = fieldOp w ++ 0#56 := by
  have hw : w = fieldOp w ++ w.extractLsb' 0 56 := by
    apply BitVec.eq_of_toNat_eq
    simp only [toNat_append_eq, fieldOp, toNat_extract_eq]
    have := w.isLt
    omega
  calc w &&& 0xFF00000000000000#64
      = (fieldOp w ++ w.extractLsb' 0 56) &&& (BitVec.allOnes 8 ++ 0#56) := congrArg (· &&& _) hw
    _ = fieldOp w ++ 0#56 := by rw [BitVec.and_append, BitVec.and_allOnes, BitVec.and_zero]

/-- The mask of a row is the opcode byte and the must-be-zero bits of its format, and its pattern is the opcode over
zeros (R65, R67). -/
theorem opcodeRows_masks : ∀ r ∈ opcodeRows,
    r.mask = 0xFF00000000000000#64 ||| mustBeZero (fieldOp r.pattern) ∧ fieldOp r.mask = BitVec.allOnes 8 ∧
      r.mask &&& mustBeZero (fieldOp r.pattern) = mustBeZero (fieldOp r.pattern) ∧
      r.pattern = fieldOp r.pattern ++ 0#56 ∧ r.pattern &&& mustBeZero (fieldOp r.pattern) = 0#64 := by
  decide

/-- A row selects the words with its opcode whose must-be-zero bits are zero (R65, R67). -/
theorem selects_iff {r : OpcodeRow} (hr : r ∈ opcodeRows) :
    r.selects w = true ↔ fieldOp w = fieldOp r.pattern ∧ w &&& mustBeZero (fieldOp w) = 0#64 := by
  obtain ⟨hmask, hop, hsub, hpat, hzero⟩ := opcodeRows_masks r hr
  simp only [OpcodeRow.selects, beq_iff_eq]
  constructor
  · intro h
    have ho : fieldOp w = fieldOp r.pattern := extract_of_and h hop
    refine ⟨ho, ?_⟩
    rw [ho, ← hsub, ← BitVec.and_assoc, h, hzero]
  · rintro ⟨ho, hz⟩
    calc w &&& r.mask
        = (w &&& 0xFF00000000000000#64) ||| (w &&& mustBeZero (fieldOp w)) := by
          rw [hmask, ho, BitVec.and_or_distrib_left]
      _ = fieldOp r.pattern ++ 0#56 := by rw [and_opMask, hz, ho, BitVec.or_zero]
      _ = r.pattern := hpat.symm

end

/-! ### The decoder, format by format -/

section

variable (w : BitVec 64)

theorem decodeS_eq : decodeS w =
    if w &&& 0x0000FFFFFFFE0000#64 = 0#64 then
      .instr (.seed (sideOfBit (w.extractLsb' 16 1)) (fieldSel w) (fieldY w))
    else .reservedBits := by
  simp only [decodeS, seedZero_iff]

theorem decodeR_eq (mk : Side → BitVec 16 → BitVec 16 → Instr) : decodeR mk w =
    if w &&& 0x00FEFFFF00000000#64 = 0#64 then
      .instr (mk (sideOfBit (w.extractLsb' 48 1)) (fieldX w) (fieldY w))
    else .reservedBits := by
  simp only [decodeR, rangeZero_iff]

theorem decodeZ_eq (i : Instr) : decodeZ i w =
    if w &&& 0x00FFFFFFFFFFFFFF#64 = 0#64 then .instr i else .reservedBits := by
  simp only [decodeZ, plainZero_iff]

end

/-! ### The decoder against the table -/

section

variable {w : BitVec 64}

/-- A word with a row's opcode is that row's command, or is rejected for a must-be-zero bit (R65, R67). -/
theorem decode_of_row {r : OpcodeRow} (hr : r ∈ opcodeRows) (ho : fieldOp w = fieldOp r.pattern) :
    ∃ i, mnemonicOf i = r.mnemonic ∧
      decode w = if w &&& mustBeZero (fieldOp w) = 0#64 then .instr i else .reservedBits := by
  simp only [opcodeRows, List.mem_cons, List.not_mem_nil, or_false] at hr
  rcases hr with rfl | rfl | rfl | rfl | rfl | rfl | rfl | rfl
  · exact ⟨.seed (sideOfBit (w.extractLsb' 16 1)) (fieldSel w) (fieldY w), rfl, by
      simp [decode, mustBeZero, decodeS_eq, show fieldOp w = 0x01#8 from ho]⟩
  · exact ⟨.fold (sideOfBit (w.extractLsb' 48 1)) (fieldX w) (fieldY w), rfl, by
      simp [decode, mustBeZero, decodeR_eq, show fieldOp w = 0x02#8 from ho]⟩
  · exact ⟨.txsum (sideOfBit (w.extractLsb' 48 1)) (fieldX w) (fieldY w), rfl, by
      simp [decode, mustBeZero, decodeR_eq, show fieldOp w = 0x03#8 from ho]⟩
  · exact ⟨.encq, rfl, by simp [decode, mustBeZero, decodeZ_eq, show fieldOp w = 0x10#8 from ho]⟩
  · exact ⟨.encr, rfl, by simp [decode, mustBeZero, decodeZ_eq, show fieldOp w = 0x11#8 from ho]⟩
  · exact ⟨.rx, rfl, by simp [decode, mustBeZero, decodeZ_eq, show fieldOp w = 0x12#8 from ho]⟩
  · exact ⟨.alloc, rfl, by simp [decode, mustBeZero, decodeZ_eq, show fieldOp w = 0x20#8 from ho]⟩
  · exact ⟨.rel, rfl, by simp [decode, mustBeZero, decodeZ_eq, show fieldOp w = 0x21#8 from ho]⟩

/-- A word with no row's opcode is rejected for its opcode (R67). -/
theorem decode_illegal (h : fieldOp w ∉ opcodeRows.map fun r => fieldOp r.pattern) :
    decode w = .illegalOpcode := by
  have h : fieldOp w ∉ [0x01#8, 0x02#8, 0x03#8, 0x10#8, 0x11#8, 0x12#8, 0x20#8, 0x21#8] := h
  simp only [List.mem_cons, List.not_mem_nil, or_false, not_or] at h
  simp [decode, h]

/-- A row that selects a word gives its command (R65). -/
theorem decode_of_selects {r : OpcodeRow} (hr : r ∈ opcodeRows) (h : r.selects w = true) :
    ∃ i, decode w = .instr i ∧ mnemonicOf i = r.mnemonic := by
  obtain ⟨ho, hz⟩ := (selects_iff hr).mp h
  obtain ⟨i, hi, hd⟩ := decode_of_row hr ho
  exact ⟨i, hd.trans (if_pos hz), hi⟩

/-- A word with a row's opcode and a must-be-zero bit set is rejected for that bit (R67). -/
theorem decode_reserved (h : fieldOp w ∈ opcodeRows.map fun r => fieldOp r.pattern)
    (hz : w &&& mustBeZero (fieldOp w) ≠ 0#64) : decode w = .reservedBits := by
  obtain ⟨r, hr, ho⟩ := List.mem_map.mp h
  obtain ⟨i, -, hd⟩ := decode_of_row hr ho.symm
  exact hd.trans (if_neg hz)

/-- A word that decodes to a command is one that a row selects (R65). -/
theorem wordWF_of_decode {i : Instr} (h : decode w = .instr i) : wordWF w = true := by
  have hop : fieldOp w ∈ opcodeRows.map fun r => fieldOp r.pattern := by
    by_contra hop
    cases (decode_illegal hop).symm.trans h
  have hz : w &&& mustBeZero (fieldOp w) = 0#64 := by
    by_contra hz
    cases (decode_reserved hop hz).symm.trans h
  obtain ⟨r, hr, ho⟩ := List.mem_map.mp hop
  exact List.any_eq_true.mpr ⟨r, hr, (selects_iff hr).mpr ⟨ho.symm, hz⟩⟩

end

/-! ### The round trip -/

/-- A word of format S decodes to the operands it was built from (R63). -/
theorem decodeS_encode (info : Side) (nh : BitVec 8) (plen : BitVec 16) :
    decodeS (encode (.seed info nh plen)) = .instr (.seed info nh plen) := by
  have hw := toNat_encode_seed info nh plen
  have h0 := nh.isLt
  have h1 := (sideBit info).isLt
  have h2 := plen.isLt
  have hz : fieldSeedZero (encode (.seed info nh plen)) = 0#15 := BitVec.eq_of_toNat_eq (by
    simp only [fieldSeedZero, toNat_extract_eq, hw, BitVec.toNat_ofNat]; omega)
  have hi : (encode (.seed info nh plen)).extractLsb' 16 1 = sideBit info := BitVec.eq_of_toNat_eq (by
    simp only [toNat_extract_eq, hw]; omega)
  have hn : fieldSel (encode (.seed info nh plen)) = nh := BitVec.eq_of_toNat_eq (by
    simp only [fieldSel, toNat_extract_eq, hw]; omega)
  have hp : fieldY (encode (.seed info nh plen)) = plen := BitVec.eq_of_toNat_eq (by
    simp only [fieldY, toNat_extract_eq, hw]; omega)
  rw [decodeS, if_pos ⟨(Laws.OpcodeField.seed info nh plen).2, hz⟩, hi, hn, hp, sideOfBit_sideBit]

/-- A word of format R decodes to the operands it was built from (R64). -/
theorem decodeR_encodeR (mk : Side → BitVec 16 → BitVec 16 → Instr) (op : BitVec 8) (buf : Side)
    (off len : BitVec 16) : decodeR mk (encodeR op buf off len) = .instr (mk buf off len) := by
  have hw := toNat_encodeR op buf off len
  have h0 := (sideBit buf).isLt
  have h1 := off.isLt
  have h2 := len.isLt
  have hz : fieldRangeZero (encodeR op buf off len) = 0#7 := BitVec.eq_of_toNat_eq (by
    simp only [fieldRangeZero, toNat_extract_eq, hw, BitVec.toNat_ofNat]; omega)
  have hb : (encodeR op buf off len).extractLsb' 48 1 = sideBit buf := BitVec.eq_of_toNat_eq (by
    simp only [toNat_extract_eq, hw]; omega)
  have ho : fieldX (encodeR op buf off len) = off := BitVec.eq_of_toNat_eq (by
    simp only [fieldX, toNat_extract_eq, hw]; omega)
  have hl : fieldY (encodeR op buf off len) = len := BitVec.eq_of_toNat_eq (by
    simp only [fieldY, toNat_extract_eq, hw]; omega)
  rw [decodeR, if_pos ⟨hz, (Laws.OpcodeField.encodeR_fields op buf off len).2⟩, hb, ho, hl, sideOfBit_sideBit]

/-- Decoding the word of a command gives the command back: its opcode selects the format, and the format's fields
are its operands (R62 to R66). -/
theorem decode_encode (i : Instr) : decode (encode i) = .instr i := by
  cases i with
  | seed info nh plen =>
    rw [decode, if_pos (Laws.OpcodeField.seed info nh plen).1, decodeS_encode]
  | fold buf off len =>
    have hd : decode (encode (.fold buf off len)) = decodeR .fold (encode (.fold buf off len)) := by
      simp [decode, (Laws.OpcodeField.fold buf off len).1]
    exact hd.trans (decodeR_encodeR .fold 0x02#8 buf off len)
  | txsum buf off len =>
    have hd : decode (encode (.txsum buf off len)) = decodeR .txsum (encode (.txsum buf off len)) := by
      simp [decode, (Laws.OpcodeField.txsum buf off len).1]
    exact hd.trans (decodeR_encodeR .txsum 0x03#8 buf off len)
  | encq => rfl
  | encr => rfl
  | rx => rfl
  | alloc => rfl
  | rel => rfl

/-- Settles O8: `decode_encode`. -/
theorem decodeOfEncodeIsTheCommand : Obligations.DecodeOfEncodeIsTheCommand := decode_encode

/-- Settles O9: `encode_of_decode`. -/
theorem encodeOfDecodeIsTheWord : Obligations.EncodeOfDecodeIsTheWord := fun _ _ => encode_of_decode

/-- Settles O10: a row selects by the opcode and the must-be-zero bits, which is what the decoder tests. -/
theorem decoderFollowsTheOpcodeTable : Obligations.DecoderFollowsTheOpcodeTable :=
  ⟨fun _ _ hr h => decode_of_selects hr h, fun _ _ => wordWF_of_decode⟩

/-- Settles O7: such a word does not decode to a command, and `runWord` raises the fault of the reason. -/
theorem wordOutsideTheTableFaults : Obligations.WordOutsideTheTableFaults := by
  intro s w rest hw hs
  rw [step_word hw hs]
  constructor
  · intro hop
    exact ⟨_, by rw [runWord, decode_illegal hop], raiseFault_entered .illop w _⟩
  · intro hop hz
    exact ⟨_, by rw [runWord, decode_reserved hop hz], raiseFault_entered .rsvd w _⟩

/-- Settles O11: each word is the word of its command. -/
theorem workedWordsDecode : Obligations.WorkedWordsDecode :=
  ⟨decode_encode (.seed .inbound 58#8 12#16), decode_encode (.seed .outbound 58#8 12#16),
    decode_encode (.fold .inbound 40#16 12#16), decode_encode (.txsum .outbound 0#16 12#16),
    decode_encode .encq, decode_encode .rx, decode_encode .rel⟩

end Sys2Proof
end

section
/-! The invariant: a fault, a register write, a buffer write, RESET and every command keep it (R20, R40, R51, R75,
R204). -/

namespace Sys2Proof.Machine

/-- The part of `BlockInv` that speaks of the parameters and the two buffers (R4, R40). -/
structure MemInv (s : State) : Prop where
  paramsWf : s.params.wf = true
  inWf : s.inMem.wf = true
  outWf : s.outMem.wf = true
  inBelow : s.inMem.below s.params.inCap.toNat = true
  outBelow : s.outMem.below s.params.outCap.toNat = true

/-- The part of `BlockInv` that speaks of RES, the fault record and ownership (R20, R51, R75, R204). -/
structure StatusInv (s : State) : Prop where
  resLegal : s.res ∈ [0x00#8, 0x01#8, 0x02#8, 0x03#8, 0x10#8, 0x20#8, 0x30#8]
  faultCode : if s.fault then 1 ≤ s.fcode.toNat ∧ s.fcode.toNat ≤ 7 else s.fcode = 0x00#8 ∧ s.fcmd = 0#64
  faultRes : s.fault = true ↔ s.res = 0x03#8
  ownedResult : s.res ∈ [0x10#8, 0x01#8, 0x02#8] → s.outBusy = true

theorem blockInv_iff {s : State} : BlockInv s ↔ MemInv s ∧ StatusInv s :=
  ⟨fun ⟨hp, hi, ho, hib, hob, hr, hc, hf, hb⟩ => ⟨⟨hp, hi, ho, hib, hob⟩, ⟨hr, hc, hf, hb⟩⟩,
    fun ⟨⟨hp, hi, ho, hib, hob⟩, ⟨hr, hc, hf, hb⟩⟩ => ⟨hp, hi, ho, hib, hob, hr, hc, hf, hb⟩⟩

section

variable {s t : State}

/-! ### The buffers -/

theorem MemInv.congr (h : MemInv s) (hp : t.params = s.params) (hi : t.inMem = s.inMem)
    (ho : t.outMem = s.outMem) : MemInv t := by
  obtain ⟨hwf, hiw, how, hib, hob⟩ := h
  constructor <;> simpa only [hp, hi, ho]

/-- A write within the capacity keeps the buffers canonical and in capacity (R40). -/
theorem memInv_memWrite (h : MemInv s) {sp : Side} {a : Nat} {bs : List (BitVec 8)}
    (hc : a + bs.length ≤ (capOf s sp).toNat) : MemInv (memWrite s sp a bs) := by
  obtain ⟨hwf, hiw, how, hib, hob⟩ := h
  cases sp with
  | inbound => exact ⟨hwf, wf_insertCells hiw, how, below_insertCells hc hib, hob⟩
  | outbound => exact ⟨hwf, hiw, wf_insertCells how, hib, below_insertCells hc hob⟩

@[simp] theorem capOf_memWrite (sp sp' : Side) (a : Nat) (bs : List (BitVec 8)) :
    capOf (memWrite s sp a bs) sp' = capOf s sp' := by
  cases sp <;> cases sp' <;> rfl

/-- TXSUM writes its field inside the range, which lies inside the message (R99). -/
theorem memInv_txsumEffect (h : MemInv s) {buf : Side} {off len : BitVec 16} (hm : MsgOk s buf)
    (hr : RangeOk s buf off len) (h4 : 4 ≤ len.toNat) : MemInv (txsumEffect buf off len s) := by
  have hfit : off.toNat + 2 + 2 ≤ (capOf s buf).toNat := by
    have hr : off.toNat + len.toNat ≤ (lenOf s buf).toNat := hr
    have := hm.2
    omega
  have hzero : MemInv (memWrite s buf (off.toNat + 2) [0x00#8, 0x00#8]) := memInv_memWrite h hfit
  have hfield : ∀ c, MemInv (memWrite (memWrite s buf (off.toNat + 2) [0x00#8, 0x00#8]) buf (off.toNat + 2)
      [hi8 c, lo8 c]) := fun c => memInv_memWrite hzero (by simpa using hfit)
  exact (hfield _).congr rfl rfl rfl

/-- A prepend writes the header and the old message below the new length (R53). -/
theorem memInv_prependOut (h : MemInv s) {hd : List (BitVec 8)}
    (hc : s.outLen.toNat + hd.length ≤ s.params.outCap.toNat) : MemInv (prependOut s hd) := by
  have hw : MemInv (memWrite s .outbound 0 (hd ++ memRead s .outbound 0 s.outLen.toNat)) :=
    memInv_memWrite h (by simp only [List.length_append, length_memRead, capOf]; omega)
  exact hw.congr rfl rfl rfl

/-- A reply of `n` bytes is written below `n` (R144, R145). -/
theorem memInv_buildReply (h : MemInv s) {n : Nat} (h8 : 8 ≤ n) (hc : n ≤ s.params.outCap.toNat) :
    MemInv (buildReply n s) := by
  have hcopy : ∀ a m, (memRead s .inbound a m).length = m := length_memRead s .inbound
  refine ⟨h.paramsWf, h.inWf, ?_, h.inBelow, ?_⟩
  · rw [buildReply_outMem]
    exact wf_insertCells (wf_insertCells (wf_insertCells h.outWf))
  · rw [buildReply_outMem]
    exact below_insertCells (by rw [hcopy]; exact (Nat.add_sub_of_le h8).le.trans hc)
      (below_insertCells (by rw [hcopy]; exact h8.trans hc)
        (below_insertCells ((by decide : 0 + 4 ≤ 8).trans (h8.trans hc)) h.outBelow))

/-! ### RES, the fault record and ownership -/

theorem StatusInv.congr (h : StatusInv s) (hr : t.res = s.res) (hf : t.fault = s.fault)
    (hc : t.fcode = s.fcode) (hw : t.fcmd = s.fcmd) (hb : t.outBusy = s.outBusy) : StatusInv t := by
  obtain ⟨hres, hcode, hfres, hown⟩ := h
  constructor <;> simpa only [hr, hf, hc, hw, hb]

/-- The number of a cause is one of 1 to 7 (R76). -/
theorem causeCode_range (c : Cause) : 1 ≤ (causeCode c).toNat ∧ (causeCode c).toNat ≤ 7 := by
  cases c <;> decide

/-- Fault entry leaves a fault record and RES 0x03 (R203). -/
theorem statusInv_raiseFault (c : Cause) (r : BitVec 64) (s : State) : StatusInv (raiseFault c r s) where
  resLegal := (by decide : 0x03#8 ∈ _)
  faultCode := causeCode_range c
  faultRes := ⟨fun _ => rfl, fun _ => rfl⟩
  ownedResult h := absurd (show 0x03#8 ∈ _ from h) (by decide)

/-- No fault is recorded (R20). -/
def NoRecord (s : State) : Prop := s.fault = false ∧ s.fcode = 0x00#8 ∧ s.fcmd = 0#64

theorem StatusInv.noRecord (h : StatusInv s) (hf : s.fault = false) : NoRecord s := by
  have hc := h.faultCode
  rw [hf] at hc
  exact ⟨hf, hc⟩

/-- A command's return without a fault leaves a legal RES; one that tells of an owned buffer needs it owned
(R51, R75). -/
theorem statusInv_finish {e : Err} {a : Act} (hn : NoRecord s)
    (hr : resByte e a ∈ [0x00#8, 0x01#8, 0x02#8, 0x10#8, 0x20#8, 0x30#8])
    (hb : resByte e a ∉ [0x10#8, 0x01#8, 0x02#8] ∨ s.outBusy = true) : StatusInv (finish e a s) := by
  obtain ⟨hf, hrecord⟩ := hn
  have hres : resByte e a ≠ 0x03#8 := ne_of_mem_of_not_mem hr (by decide)
  refine ⟨?_, ?_, ?_, fun h => hb.resolve_left (not_not_intro h)⟩
  · exact (by decide : [0x00#8, 0x01#8, 0x02#8, 0x10#8, 0x20#8, 0x30#8] ⊆
      [0x00#8, 0x01#8, 0x02#8, 0x03#8, 0x10#8, 0x20#8, 0x30#8]) hr
  · simpa [hf] using hrecord
  · simp [hf, hres]

/-! ### Commands and steps -/

/-- A command's return without a fault keeps the invariant where its effect `u` keeps the buffers. -/
theorem blockInv_finish {u : State} {e : Err} {a : Act} (h : BlockInv s) (hf : s.fault = false)
    (hm : MemInv u) (hu : u.fault = s.fault ∧ u.fcode = s.fcode ∧ u.fcmd = s.fcmd)
    (hr : resByte e a ∈ [0x00#8, 0x01#8, 0x02#8, 0x10#8, 0x20#8, 0x30#8])
    (hb : resByte e a ∉ [0x10#8, 0x01#8, 0x02#8] ∨ u.outBusy = true) : BlockInv (finish e a u) := by
  obtain ⟨hmem, hstatus⟩ := blockInv_iff.mp h
  have hn : NoRecord u := by simpa only [NoRecord, hu] using hstatus.noRecord hf
  exact blockInv_iff.mpr ⟨hm.congr rfl rfl rfl, statusInv_finish hn hr hb⟩

/-- A fault keeps the invariant (R203). -/
theorem blockInv_raiseFault (h : BlockInv s) (c : Cause) (r : BitVec 64) : BlockInv (raiseFault c r s) :=
  blockInv_iff.mpr ⟨(blockInv_iff.mp h).1.congr rfl rfl rfl, statusInv_raiseFault c r s⟩

/-- The invariant speaks neither of the script nor of what a read returned. -/
theorem blockInv_withHost (h : BlockInv s) (rest : List HostAction) (v : Option (BitVec 128)) :
    BlockInv { s with script := rest, readout := v } :=
  blockInv_iff.mpr ⟨(blockInv_iff.mp h).1.congr rfl rfl rfl, (blockInv_iff.mp h).2.congr rfl rfl rfl rfl rfl⟩

/-- Every command keeps the invariant. -/
theorem exec_keeps_blockInv {i : Instr} (h : BlockInv s) (he : exec i s = .next t) : BlockInv t := by
  have hmem : MemInv s := (blockInv_iff.mp h).1
  cases exec_effect he with
  | frozen _ e => exact e ▸ h
  | fault _ c _ e => exact e ▸ blockInv_raiseFault h c _
  | txsum hf buf off len _ _ hm hr h4 e =>
    subst e
    have frame := txsumEffect_frame buf off len s
    exact blockInv_finish h hf (memInv_txsumEffect hmem hm hr h4)
      ⟨(congrArg State.fault frame :), (congrArg State.fcode frame :), (congrArg State.fcmd frame :)⟩
      (by decide) (.inl (by decide))
  | noroom hf _ hb e =>
    subst e
    exact blockInv_finish h hf (hmem.congr rfl rfl rfl) ⟨rfl, rfl, rfl⟩ (by decide) (.inr hb)
  | request hf _ hb _ hc e =>
    subst e
    have hcounted : MemInv { s with seq := s.seq + 1#16 } := hmem.congr rfl rfl rfl
    have hprepended := memInv_prependOut hcounted
      (hd := echoHeader Config.typeEchoRequest Config.ident s.seq) hc
    exact blockInv_finish h hf (hprepended.congr rfl rfl rfl) ⟨rfl, rfl, rfl⟩ (by decide) (.inr hb)
  | reply hf x _ _ h8 hc e =>
    subst e
    have hsummed : MemInv { s with acc := x } := hmem.congr rfl rfl rfl
    exact blockInv_finish h hf (memInv_buildReply hsummed h8 hc) ⟨rfl, rfl, rfl⟩ (by decide) (.inr rfl)
  | nobufs hf _ hb e =>
    subst e
    exact blockInv_finish h hf hmem ⟨rfl, rfl, rfl⟩ (by decide) (.inr hb)
  | sum hf | quiet hf | log hf | deliver hf | unreach hf | alloc hf | rel hf =>
    subst t
    exact blockInv_finish h hf (hmem.congr rfl rfl rfl) ⟨rfl, rfl, rfl⟩ (by decide) (.inl (by decide))

/-- Every step keeps the invariant. -/
theorem step_keeps_blockInv (h : BlockInv s) (hs : step s = .next t) : BlockInv t := by
  have hhost : ∀ rest, BlockInv { s with script := rest } := fun rest => blockInv_withHost h rest s.readout
  cases step_effect hs with
  | idle _ e => exact e ▸ h
  | reset rest _ e =>
    subst e
    exact blockInv_withHost (blockInv_initial h.paramsWf (s.epoch + 1)) rest none
  | command rest _ _ _ _ _ e => exact exec_keeps_blockInv (hhost rest) e
  | badWord rest w c _ _ _ e => exact e ▸ blockInv_raiseFault (hhost rest) c w
  | frozen rest _ e => exact e ▸ hhost rest
  | register rest _ _ _ e =>
    obtain ⟨hf, hp, -, hb, hr, hc, hw, hi, ho, -⟩ := writeReg_frame e
    obtain ⟨hmem, hstatus⟩ := blockInv_iff.mp h
    exact blockInv_iff.mpr ⟨hmem.congr hp hi ho, hstatus.congr hr hf hc hw hb⟩
  | byte rest sp i v _ hi e =>
    subst e
    obtain ⟨hmem, hstatus⟩ := blockInv_iff.mp (hhost rest)
    have hc : capOf { s with script := rest } sp = capOf s sp := by cases sp <;> rfl
    exact blockInv_iff.mpr ⟨memInv_memWrite hmem (by rw [hc]; exact hi),
      hstatus.congr (by simp) (by simp) (by simp) (by simp) (by simp)⟩
  | deniedWrite rest c r _ _ e => exact e ▸ blockInv_raiseFault (hhost rest) c r
  | deniedRead rest c r _ _ e =>
    subst e
    exact blockInv_withHost (blockInv_raiseFault (hhost rest) c r) rest _
  | read rest v e => exact e ▸ blockInv_withHost h rest v

end

/-- Settles O53: `step_keeps_blockInv`, over the effects of a step and those of a command. -/
theorem everyStepKeepsTheInvariant : Obligations.EveryStepKeepsTheInvariant := fun _ _ => step_keeps_blockInv

end Sys2Proof.Machine
end

section
/-! The results a command can return (R75). -/

namespace Sys2Proof.Machine

/-- Settles O45: each effect of a command ends in `finish` with its own result, but for the frozen block and the
fault. -/
theorem commandsReturnTheirOwnResults : Obligations.CommandsReturnTheirOwnResults := by
  intro i s t hw h ht
  cases exec_effect h with
  | frozen hf => exact absurd (hw.symm.trans hf) Bool.false_ne_true
  | fault _ _ _ e => subst e; exact absurd ht Bool.true_eq_false_eq_False
  | nobufs _ hi _ e => exact .inr (.inl ⟨congrArg State.res e, hi⟩)
  | noroom _ hi _ e => exact .inr (.inr (.inl ⟨congrArg State.res e, hi⟩))
  | request _ hi _ _ _ e => exact .inr (.inr (.inr (.inl ⟨congrArg State.res e, .inl hi⟩)))
  | reply _ _ hi _ _ _ e => exact .inr (.inr (.inr (.inl ⟨congrArg State.res e, .inr hi⟩)))
  | deliver _ _ hi e => exact .inr (.inr (.inr (.inr (.inl ⟨congrArg State.res e, hi⟩))))
  | unreach _ _ hi e => exact .inr (.inr (.inr (.inr (.inr ⟨congrArg State.res e, hi⟩))))
  | sum | txsum | quiet | log | alloc | rel => subst t; exact .inl rfl

end Sys2Proof.Machine
end

section
/-! The one's-complement sum does not depend on the order of its words, so that the checksum TXSUM writes into a
range's field makes the range verify (R91, R95, R99, R100). -/

namespace Sys2Proof.Machine

/-! ### The one's-complement sum -/

theorem ocAdd_comm (a b : BitVec 16) : ocAdd a b = ocAdd b a := by
  simp only [ocAdd, Nat.add_comm]

/-- The carry is added back in where there is one (R90). -/
theorem toNat_ocAdd (a b : BitVec 16) : (ocAdd a b).toNat =
    if a.toNat + b.toNat ≤ 0xFFFF then a.toNat + b.toNat else a.toNat + b.toNat - 0xFFFF := by
  have ha := a.isLt
  have hb := b.isLt
  simp only [ocAdd, BitVec.toNat_ofNat]
  split <;> omega

theorem ocAdd_assoc (a b c : BitVec 16) : ocAdd (ocAdd a b) c = ocAdd a (ocAdd b c) := by
  apply BitVec.eq_of_toNat_eq
  have ha := a.isLt
  have hb := b.isLt
  have hc := c.isLt
  simp only [toNat_ocAdd]
  split_ifs <;> omega

theorem ocAdd_zero (a : BitVec 16) : ocAdd a 0x0000#16 = a :=
  BitVec.eq_of_toNat_eq (by rw [toNat_ocAdd]; exact if_pos (Nat.le_of_lt_succ a.isLt))

/-- A sum does not depend on the order of its words (R91). -/
theorem ocSum_perm (a : BitVec 16) {u v : List (BitVec 16)} (h : u.Perm v) : ocSum a u = ocSum a v :=
  h.foldl_eq' (fun x _ y _ z => by rw [ocAdd_assoc, ocAdd_assoc, ocAdd_comm x y]) a

/-- The first word may be added last (R91). -/
theorem ocSum_cons (a w : BitVec 16) (ws : List (BitVec 16)) : ocSum a (w :: ws) = ocAdd (ocSum a ws) w := by
  rw [ocSum_perm a (List.perm_append_singleton w ws).symm, ocSum, List.foldl_append]
  rfl

/-- The seed is the same for source and destination changed over (R95). -/
theorem seedOf_comm (a b : BitVec 128) (plen : BitVec 16) (nh : BitVec 8) : seedOf a b plen nh = seedOf b a plen nh :=
  ocSum_perm _ (List.perm_append_comm.append_right _)

/-- The checksum of a fold brings the fold to 0xFFFF (R99, R100). -/
theorem ocAdd_txChecksum (f : BitVec 16) : ocAdd f (txChecksum f) = 0xFFFF#16 := by
  unfold txChecksum
  split
  case isTrue h => subst h; decide
  case isFalse h =>
    apply BitVec.eq_of_toNat_eq
    have hf := f.isLt
    rw [toNat_ocAdd, BitVec.toNat_not, if_pos (by omega)]
    exact Nat.add_sub_of_le (Nat.le_of_lt_succ hf)

/-! ### The checksum field -/

theorem be16_hi8_lo8 (c : BitVec 16) : be16 (hi8 c) (lo8 c) = c := by
  apply BitVec.eq_of_toNat_eq
  have := c.isLt
  simp only [be16, hi8, lo8, toNat_append_eq, toNat_extract_eq]
  omega

theorem foldBytes_pair (a : BitVec 16) (b0 b1 : BitVec 8) (bs : List (BitVec 8)) :
    foldBytes a (b0 :: b1 :: bs) = ocAdd (foldBytes a bs) (be16 b0 b1) := ocSum_cons _ _ _

/-- A value put into the zero field at offset 2 of a range is added to the range's fold (R99). -/
theorem foldBytes_field (a c : BitVec 16) (b0 b1 : BitVec 8) (bs : List (BitVec 8)) :
    foldBytes a (b0 :: b1 :: hi8 c :: lo8 c :: bs) =
      ocAdd (foldBytes a (b0 :: b1 :: 0x00#8 :: 0x00#8 :: bs)) c := by
  have hzero : be16 0x00#8 0x00#8 = 0x0000#16 := rfl
  simp only [foldBytes_pair, be16_hi8_lo8, hzero, ocAdd_zero, ocAdd_assoc, ocAdd_comm c]

section

variable (s : State) (sp : Side) (a : Nat) {n : Nat} (h4 : 4 ≤ n)

include h4

/-- A range of 4 or more bytes, cut behind its checksum field. -/
theorem memRead_field : memRead s sp a n =
    readByte s sp a :: readByte s sp (a + 1) :: readByte s sp (a + 2) :: readByte s sp (a + 3) ::
      memRead s sp (a + 4) (n - 4) := by
  obtain ⟨m, rfl⟩ := Nat.exists_eq_add_of_le' h4
  simp [memRead, List.range_succ_eq_map, Nat.add_assoc, Nat.add_comm 4]

theorem rangeFieldZero_field : rangeFieldZero s sp a n =
    readByte s sp a :: readByte s sp (a + 1) :: 0x00#8 :: 0x00#8 :: memRead s sp (a + 4) (n - 4) := by
  obtain ⟨m, rfl⟩ := Nat.exists_eq_add_of_le' h4
  simp [rangeFieldZero, memRead, List.range_succ_eq_map, Nat.add_assoc, Nat.add_comm 4]

end

/-- After TXSUM the range folds, from the seed it started with, to 0xFFFF (R100). -/
theorem foldBytes_txsumEffect (buf : Side) (off len : BitVec 16) (s : State) (h4 : 4 ≤ len.toNat) :
    foldBytes s.acc (memRead (txsumEffect buf off len s) buf off.toNat len.toNat) = 0xFFFF#16 := by
  have hrest : memRead (txsumEffect buf off len s) buf (off.toNat + 4) (len.toNat - 4) =
      memRead s buf (off.toNat + 4) (len.toNat - 4) :=
    memRead_congr fun k _ => by
      rw [readByte_txsumEffect, if_neg (by omega), if_neg (by omega)]
  have hrange : memRead (txsumEffect buf off len s) buf off.toNat len.toNat =
      readByte s buf off.toNat :: readByte s buf (off.toNat + 1) ::
        hi8 (txChecksum (foldBytes s.acc (rangeFieldZero s buf off.toNat len.toNat))) ::
        lo8 (txChecksum (foldBytes s.acc (rangeFieldZero s buf off.toNat len.toNat))) ::
        memRead s buf (off.toNat + 4) (len.toNat - 4) := by
    rw [memRead_field _ _ _ h4, hrest]
    simp [readByte_txsumEffect]
  rw [hrange, foldBytes_field, ← rangeFieldZero_field s buf off.toNat h4, ocAdd_txChecksum]

end Sys2Proof.Machine
end

section
/-! The pseudo-commands VERIFY and TXCSUM, two steps each: SEED, and then FOLD or TXSUM (R79). -/

namespace Sys2Proof.Machine

/-- The step of a command of a working block. -/
theorem step_commandAction {s : State} {i : Instr} {rest : List HostAction} (hw : Working s)
    (hs : s.script = commandAction i :: rest) : step s = exec i { s with script := rest } :=
  stepRunsTheDecodedCommand s (encode i) rest i hw hs (decode_encode i)

/-- The state SEED leaves with the actions `rest` to come (R96). -/
def State.seeded (s : State) (info : Side) (n : BitVec 16) (rest : List HostAction) : State :=
  finish .none .none
    { s with script := rest, acc := seedOf (localOf s info) (peerOf s info) n Config.nhIcmpv6 }

section

variable {s : State} (info : Side) (n : BitVec 16)

theorem step_seed (hw : Working s) (rest : List HostAction) :
    step { s with script := commandAction (.seed info Config.nhIcmpv6 n) :: rest } =
      .next (s.seeded info n rest) := by
  have hseed := exec_seed (info := info) (nh := Config.nhIcmpv6) (plen := n) (s := { s with script := rest }) hw
  have hstep := step_commandAction
    (s := { s with script := commandAction (.seed info Config.nhIcmpv6 n) :: rest }) hw rfl
  rw [hstep, hseed]
  cases info <;> rfl

/-- The step after SEED. -/
theorem step_seeded (hw : Working s) (i : Instr) (rest : List HostAction) :
    step (s.seeded info n (commandAction i :: rest)) = exec i (s.seeded info n rest) :=
  step_commandAction (s := s.seeded info n (commandAction i :: rest)) hw rfl

/-- SEED and the script leave the bytes alone. -/
theorem readByte_seeded (rest : List HostAction) (sp : Side) (k : Nat) :
    readByte (s.seeded info n rest) sp k = readByte s sp k := by
  cases sp <;> rfl

end

/-- Settles O25: the two steps are SEED's and then `exec_fold` or `exec_txsum`; the field verifies by
`foldBytes_txsumEffect`. -/
theorem pseudoCommandsVerifyAndFinish : Obligations.PseudoCommandsVerifyAndFinish := by
  intro s off n rest hw
  constructor
  · intro hm hr
    have hfold := exec_fold (buf := .inbound) (s := s.seeded .inbound n rest) hw nofun hm hr
    refine ⟨_, _, step_seed .inbound n hw _, (step_seeded .inbound n hw _ rest).trans hfold, rfl, ?_⟩
    rw [all1, beq_iff_eq, seedOf_comm]
    rfl
  · intro hb hm hr h4
    have htxsum := exec_txsum (buf := .outbound) (s := s.seeded .outbound n rest) hw (fun _ => hb) hm hr h4
    refine ⟨_, _, step_seed .outbound n hw _, (step_seeded .outbound n hw _ rest).trans htxsum, rfl, ?_, ?_⟩
    · exact foldBytes_txsumEffect .outbound off n (s.seeded .outbound n rest) h4
    · intro sp k hk
      have hout : ∀ d, d < 2 → ¬ (sp = .outbound ∧ k = off.toNat + 2 + d) := by
        rintro d hd ⟨hsp, rfl⟩
        have := hk hsp
        omega
      rw [readByte_finish, readByte_txsumEffect, if_neg (hout 0 (by decide)), if_neg (hout 1 (by decide)),
        readByte_seeded]

end Sys2Proof.Machine
end

section
/-! The one's-complement sum as an integer sum reduced once at the end, and the words of a byte sequence (R90 to
R93). -/

namespace Sys2Proof.Machine

/-! ### Reducing an integer sum -/

theorem toNat_endAround (t : Nat) :
    (endAround t).toNat = if t = 0 then 0 else (t - 1) % 0xFFFF + 1 := by
  unfold endAround
  split
  · rfl
  · rw [BitVec.toNat_ofNat]
    omega

/-- A sum that fits in 16 bits is its own one's-complement value. -/
theorem endAround_of_le {t : Nat} (h : t ≤ 0xFFFF) : endAround t = BitVec.ofNat 16 t := by
  apply BitVec.eq_of_toNat_eq
  rw [toNat_endAround, BitVec.toNat_ofNat]
  split <;> omega

theorem endAround_eq_zero {t : Nat} : endAround t = 0x0000#16 ↔ t = 0 := by
  rw [← BitVec.toNat_inj, toNat_endAround]
  split <;> simp_all

/-- A sum reads as 0xFFFF where it is a multiple of 0xFFFF other than 0. -/
theorem endAround_eq_allOnes {t : Nat} : endAround t = 0xFFFF#16 ↔ t ≠ 0 ∧ t % 0xFFFF = 0 := by
  rw [← BitVec.toNat_inj, toNat_endAround, BitVec.toNat_ofNat]
  split <;> omega

/-- Adding a word to a reduced sum gives the reduced larger sum. -/
theorem ocAdd_endAround (t : Nat) (w : BitVec 16) : ocAdd (endAround t) w = endAround (t + w.toNat) := by
  apply BitVec.eq_of_toNat_eq
  have hw := w.isLt
  rw [toNat_ocAdd, toNat_endAround, toNat_endAround]
  split_ifs <;> omega

/-- Bringing the high part of a wide sum round leaves its one's-complement value. -/
theorem endAround_reduceOnce (t : Nat) : endAround (reduceOnce t) = endAround t := by
  apply BitVec.eq_of_toNat_eq
  rw [toNat_endAround, toNat_endAround, reduceOnce]
  split_ifs <;> omega

theorem endAround_iterate_reduceOnce (n t : Nat) : endAround (reduceOnce^[n] t) = endAround t := by
  induction n generalizing t with
  | zero => rfl
  | succ n ih => rw [Function.iterate_succ_apply, ih, endAround_reduceOnce]

/-! ### The sum of words -/

@[simp] theorem wordTotal_nil : wordTotal [] = 0 := rfl

@[simp] theorem wordTotal_cons (w : BitVec 16) (ws : List (BitVec 16)) :
    wordTotal (w :: ws) = w.toNat + wordTotal ws := rfl

@[simp] theorem wordTotal_append (u v : List (BitVec 16)) : wordTotal (u ++ v) = wordTotal u + wordTotal v := by
  simp [wordTotal]

theorem wordTotal_eq_zero {ws : List (BitVec 16)} : wordTotal ws = 0 ↔ ∀ w ∈ ws, w = 0x0000#16 := by
  simp [wordTotal, List.sum_eq_zero_iff, ← BitVec.toNat_inj]

/-- The closed form of the sum (R92). -/
theorem ocSum_eq_endAround (a : BitVec 16) (ws : List (BitVec 16)) :
    ocSum a ws = endAround (a.toNat + wordTotal ws) := by
  induction ws with
  | nil => simp [ocSum, endAround_of_le (Nat.le_of_lt_succ a.isLt)]
  | cons w ws ih =>
    rw [ocSum_cons, ih, ocAdd_endAround, wordTotal_cons]
    congr 1
    omega

/-- The carry brought round makes 0xFFFF a second zero for every word but 0x0000 (R91). -/
theorem ocAdd_allOnes {a : BitVec 16} (h : a ≠ 0x0000#16) : ocAdd a 0xFFFF#16 = a := by
  apply BitVec.eq_of_toNat_eq
  have hne : a.toNat ≠ 0 := fun h0 => h (BitVec.eq_of_toNat_eq h0)
  rw [toNat_ocAdd, BitVec.toNat_ofNat]
  split <;> omega

theorem ocSum_append (a : BitVec 16) (u v : List (BitVec 16)) : ocSum (ocSum a u) v = ocSum a (u ++ v) :=
  (List.foldl_append ..).symm

/-- Settles O12: `toNat_ocAdd`. -/
theorem onesComplementAddBringsTheCarryRound : Obligations.OnesComplementAddBringsTheCarryRound := toNat_ocAdd

/-- Settles O13: the laws of `ocAdd`, and with them those of its left fold. -/
theorem onesComplementSumIgnoresOrder : Obligations.OnesComplementSumIgnoresOrder :=
  ⟨fun _ => rfl, fun _ _ _ => rfl, ocAdd_comm, ocAdd_assoc, ocAdd_zero, fun _ => ocAdd_allOnes, by decide,
    fun a _ _ => ocSum_perm a, ocSum_append⟩

/-- Settles O14: the closed form, which reducing the wide sum any number of times does not change. -/
theorem onesComplementSumClosedForm : Obligations.OnesComplementSumClosedForm := by
  intro a ws
  refine ⟨ocSum_eq_endAround a ws, ?_, fun n hn => ?_⟩
  · rw [ocSum_eq_endAround, endAround_eq_zero, Nat.add_eq_zero_iff, wordTotal_eq_zero, ← BitVec.toNat_inj]
    rfl
  · rw [← endAround_of_le hn, endAround_iterate_reduceOnce, ocSum_eq_endAround]

/-! ### The words of a byte sequence -/

/-- A word is its high byte times 256 plus its low byte (R6). -/
theorem toNat_be16 (b0 b1 : BitVec 8) : (be16 b0 b1).toNat = b0.toNat * 256 + b1.toNat := toNat_append_eq b0 b1

/-- Byte sequences of even length pair up each by itself (R93). -/
theorem wordsOf_append {u : List (BitVec 8)} (h : u.length % 2 = 0) (v : List (BitVec 8)) :
    wordsOf (u ++ v) = wordsOf u ++ wordsOf v := by
  induction u using wordsOf.induct with
  | case1 => rfl
  | case2 b => cases h
  | case3 b0 b1 rest ih =>
    have hrest : rest.length % 2 = 0 := by simpa [Nat.add_assoc] using h
    simp only [List.cons_append, wordsOf, ih hrest]

theorem length_wordsOf (s : List (BitVec 8)) : (wordsOf s).length = (s.length + 1) / 2 := by
  induction s using wordsOf.induct with
  | case1 => rfl
  | case2 b => simp [wordsOf]
  | case3 b0 b1 rest ih =>
    simp only [wordsOf, List.length_cons, ih]
    omega

/-- Word `k` is made of bytes `2k` and `2k + 1`, a missing one being zero (R93). -/
theorem toNat_getD_wordsOf (s : List (BitVec 8)) (k : Nat) : ((wordsOf s).getD k 0#16).toNat =
    (s.getD (2 * k) 0#8).toNat * 256 + (s.getD (2 * k + 1) 0#8).toNat := by
  induction s using wordsOf.induct generalizing k with
  | case1 => simp [wordsOf]
  | case2 b => cases k with
    | zero => simp [wordsOf, toNat_be16]
    | succ k => simp [wordsOf, Nat.mul_add]
  | case3 b0 b1 rest ih => cases k with
    | zero => simp [wordsOf, toNat_be16]
    | succ k => simpa [wordsOf, Nat.mul_add] using ih k

/-- Settles O15: `length_wordsOf` and `toNat_getD_wordsOf`. -/
theorem wordsPairBytesHighFirst : Obligations.WordsPairBytesHighFirst :=
  fun s => ⟨length_wordsOf s, fun k _ => toNat_getD_wordsOf s k⟩

/-- A byte adds to a sequence's sum its value times the weight of its place, 256 or 1, whatever the value
(R93). -/
theorem wordTotal_wordsOf_byte (pre post : List (BitVec 8)) : ∃ others weight : Nat,
    (weight = 256 ∨ weight = 1) ∧
      ∀ b, wordTotal (wordsOf (pre ++ b :: post)) = others + b.toNat * weight := by
  induction pre using wordsOf.induct with
  | case1 => cases post with
    | nil => exact ⟨0, 256, .inl rfl, fun b => by simp [wordsOf, toNat_be16]⟩
    | cons b1 rest =>
      exact ⟨b1.toNat + wordTotal (wordsOf rest), 256, .inl rfl, fun b => by
        simp only [List.nil_append, wordsOf, wordTotal_cons, toNat_be16]; omega⟩
  | case2 b0 =>
    exact ⟨b0.toNat * 256 + wordTotal (wordsOf post), 1, .inr rfl, fun b => by
      simp only [List.cons_append, List.nil_append, wordsOf, wordTotal_cons, toNat_be16]; omega⟩
  | case3 b0 b1 rest ih =>
    obtain ⟨others, weight, hweight, htotal⟩ := ih
    exact ⟨(be16 b0 b1).toNat + others, weight, hweight, fun b => by
      simp only [List.cons_append, wordsOf, wordTotal_cons, htotal]; omega⟩

/-! ### What the sum catches -/

/-- A range verifies where its integer sum with the seed is a multiple of 0xFFFF other than 0. -/
theorem foldBytes_eq_allOnes {a : BitVec 16} {bs : List (BitVec 8)} : foldBytes a bs = 0xFFFF#16 ↔
    a.toNat + wordTotal (wordsOf bs) ≠ 0 ∧ (a.toNat + wordTotal (wordsOf bs)) % 0xFFFF = 0 := by
  rw [foldBytes, ocSum_eq_endAround, endAround_eq_allOnes]

/-- Two sums that verify differ by a multiple of 0xFFFF, which a change of one byte cannot reach (R103). -/
theorem foldBytes_ne_allOnes_of_byte {seed : BitVec 16} {pre post : List (BitVec 8)} {b b' : BitVec 8}
    (hne : b' ≠ b) (h : foldBytes seed (pre ++ b :: post) = 0xFFFF#16) :
    foldBytes seed (pre ++ b' :: post) ≠ 0xFFFF#16 := by
  intro h'
  obtain ⟨others, weight, hweight, htotal⟩ := wordTotal_wordsOf_byte pre post
  rw [foldBytes_eq_allOnes, htotal] at h h'
  have hb := b.isLt
  have hb' := b'.isLt
  have hval : b'.toNat ≠ b.toNat := fun e => hne (BitVec.eq_of_toNat_eq e)
  rcases hweight with rfl | rfl <;> omega

/-- Settles O18: a changed byte moves the integer sum by less than 0xFFFF; a swap keeps it, and 0xFFFF for 0x0000
moves it by 0xFFFF. -/
theorem corruptedByteIsCaught : Obligations.CorruptedByteIsCaught := by
  refine ⟨fun _ _ _ _ _ => foldBytes_ne_allOnes_of_byte, fun seed x y u v w => ?_, fun seed u v h => ?_⟩
  · simp only [ocSum_eq_endAround, wordTotal_append, wordTotal_cons]
    congr 1
    omega
  · simp only [ocSum_eq_endAround, endAround_eq_allOnes, wordTotal_append, wordTotal_cons,
      BitVec.toNat_ofNat] at h ⊢
    omega

end Sys2Proof.Machine
end

section
/-! The pseudo-header seed: its words, its bytes and its integer sum (R74, R95). -/

namespace Sys2Proof.Machine

theorem toNat_addrByte (a : BitVec 128) (k : Nat) :
    (addrByte a k).toNat = a.toNat / 2 ^ (8 * (15 - k)) % 2 ^ 8 := toNat_extract_eq a _ 8

@[simp] theorem length_addrBytes (a : BitVec 128) : (addrBytes a).length = 16 := by simp [addrBytes]

/-- Two address bytes in wire order are a 16-bit word of the address (R6). -/
theorem toNat_be16_addrByte (a : BitVec 128) {k : Nat} (hk : k < 8) :
    (be16 (addrByte a (2 * k)) (addrByte a (2 * k + 1))).toNat = a.toNat / 65536 ^ (7 - k) % 65536 := by
  have hhigh : 8 * (15 - 2 * k) = 16 * (7 - k) + 8 := by omega
  have hlow : 8 * (15 - (2 * k + 1)) = 16 * (7 - k) := by omega
  have hbase : 65536 ^ (7 - k) = 2 ^ (16 * (7 - k)) := (pow_mul 2 16 (7 - k)).symm
  rw [toNat_be16, toNat_addrByte, toNat_addrByte, hhigh, hlow, pow_add, ← Nat.div_div_eq_div_mul, hbase]
  omega

/-- The words of an address's bytes, the last one the lowest, sum to the sum of its 16-bit words (R95). -/
theorem wordTotal_addrBytes (a : BitVec 128) : wordTotal (wordsOf (addrBytes a)) = addrTotal a := by
  have hwords : wordsOf (addrBytes a) =
      (List.range 8).map fun k => be16 (addrByte a (2 * k)) (addrByte a (2 * k + 1)) := rfl
  have hvalues : (wordsOf (addrBytes a)).map BitVec.toNat =
      (List.range 8).map fun k => a.toNat / 65536 ^ (7 - k) % 65536 := by
    rw [hwords, List.map_map]
    exact List.map_congr_left fun k hk => toNat_be16_addrByte a (List.mem_range.mp hk)
  have hreverse : ((List.range 8).map fun k => a.toNat / 65536 ^ (7 - k) % 65536) =
      ((List.range 8).map fun k => a.toNat / 65536 ^ k % 65536).reverse := rfl
  rw [wordTotal, hvalues, hreverse, List.sum_reverse, addrTotal]

/-- The twenty words of the pseudo-header are those of its 40 bytes (R74). -/
theorem wordsOf_pseudoHeader (a b : BitVec 128) (plen : BitVec 16) (nh : BitVec 8) :
    wordsOf (pseudoHeader a b plen nh) =
      wordsOf (addrBytes a) ++ wordsOf (addrBytes b) ++ [0x0000#16, plen, 0x0000#16, nh.setWidth 16] := by
  have hnh : be16 0x00#8 nh = nh.setWidth 16 := by
    apply BitVec.eq_of_toNat_eq
    have := nh.isLt
    rw [toNat_be16, BitVec.toNat_setWidth, BitVec.toNat_ofNat]
    omega
  have hzero : be16 0x00#8 0x00#8 = 0x0000#16 := rfl
  simp only [pseudoHeader, List.append_assoc]
  rw [wordsOf_append (by simp), wordsOf_append (by simp)]
  simp only [List.cons_append, List.nil_append, wordsOf, hzero, be16_hi8_lo8, hnh]

/-- The integer sum behind the seed (R92, R95). -/
theorem seedOf_eq_endAround (a b : BitVec 128) (plen : BitVec 16) (nh : BitVec 8) :
    seedOf a b plen nh = endAround (addrTotal a + addrTotal b + plen.toNat + nh.toNat) := by
  have hnh : (nh.setWidth 16).toNat = nh.toNat := BitVec.toNat_setWidth_of_le (by decide)
  rw [seedOf, ocSum_eq_endAround]
  simp [wordTotal_addrBytes, hnh, Nat.add_assoc]

/-- Settles O16: the seed by its words, its bytes and its integer sum; a next header that is not 0 keeps that sum
from 0. -/
theorem seedSumsThePseudoHeader : Obligations.SeedSumsThePseudoHeader := by
  intro a b plen nh
  refine ⟨by rw [BitVec.ofNat_toNat]; rfl, ?_, seedOf_eq_endAround a b plen nh, seedOf_comm a b plen nh,
    fun hnh hseed => ?_⟩
  · rw [foldBytes, wordsOf_pseudoHeader, seedOf]
  · rw [seedOf_eq_endAround, endAround_eq_zero] at hseed
    exact hnh (BitVec.eq_of_toNat_eq (Nat.eq_zero_of_add_eq_zero_left hseed))

end Sys2Proof.Machine
end

section
/-! SEED, FOLD and TXSUM: their results and frames, FOLD over a split range, and a finished datagram at its
receiver (R96, R97, R99, R100, R102, S2). -/

namespace Sys2Proof.Machine

/-! ### SEED and FOLD -/

section

variable {s t : State} {buf : Side} {off len : BitVec 16} (e : Err) (a : Act) (x : BitVec 16)

/-- A command that ends with a new ACC changes ACC and RES only. -/
theorem finish_withAcc_frame : { finish e a { s with acc := x } with acc := s.acc, res := s.res } = s := rfl

theorem readByte_withAcc (sp : Side) (k : Nat) : readByte { s with acc := x } sp k = readByte s sp k := by
  cases sp <;> rfl

theorem bytesKept_finish_withAcc : BytesKept s (finish e a { s with acc := x }) := bytesKept_of_eq rfl rfl rfl

/-- FOLD's checks read neither ACC, RES nor a buffer byte: it runs in `t` where it does in `s`. -/
theorem exec_fold_of_frame
    (frame : { t with acc := s.acc, res := s.res, inMem := s.inMem, outMem := s.outMem } = s)
    (hw : Working s) (ho : Owned s buf) (hm : MsgOk s buf) (hr : RangeOk s buf off len) :
    exec (.fold buf off len) t = .next (finish .none .none
      { t with acc := foldBytes t.acc (memRead t buf off.toNat len.toNat) }) := by
  have hfault : t.fault = s.fault := (congrArg State.fault frame :)
  have hbusy : t.outBusy = s.outBusy := (congrArg State.outBusy frame :)
  have hlen : lenOf t buf = lenOf s buf := (congrArg (lenOf · buf) frame :)
  have hoff : offOf t buf = offOf s buf := (congrArg (offOf · buf) frame :)
  have hcap : capOf t buf = capOf s buf := (congrArg (capOf · buf) frame :)
  exact exec_fold (hfault.trans hw) (fun h => hbusy.trans (ho h)) (by simpa only [MsgOk, hlen, hoff, hcap])
    (by simpa only [RangeOk, hlen])

end

/-- Settles O19: `exec_seed`. -/
theorem seedPutsTheSeedIntoAcc : Obligations.SeedPutsTheSeedIntoAcc := by
  intro info nh plen s hw
  exact ⟨_, exec_seed hw, by cases info <;> simp [localOf, peerOf], rfl, finish_withAcc_frame ..,
    bytesKept_finish_withAcc _ _ _⟩

/-- Settles O20: `exec_fold`; an empty range has no words. -/
theorem foldAddsTheRangeIntoAcc : Obligations.FoldAddsTheRangeIntoAcc := by
  intro buf off len s hw ho hm hr
  exact ⟨_, exec_fold hw ho hm hr, rfl, by rintro rfl; rfl, rfl, finish_withAcc_frame ..,
    bytesKept_finish_withAcc _ _ _⟩

/-- A fold over an even number of bytes goes on over the bytes behind them (R91, R93, R102). -/
theorem foldBytes_append (a : BitVec 16) {u : List (BitVec 8)} (h : u.length % 2 = 0) (v : List (BitVec 8)) :
    foldBytes (foldBytes a u) v = foldBytes a (u ++ v) := by
  rw [foldBytes, foldBytes, foldBytes, ocSum_append, wordsOf_append h]

/-- A range is its first `m` bytes and then the rest. -/
theorem memRead_append (s : State) (sp : Side) (a m n : Nat) :
    memRead s sp a m ++ memRead s sp (a + m) n = memRead s sp a (m + n) := by
  simp [memRead, List.range_add, Nat.add_assoc]

/-- Settles O17: the second FOLD goes on behind the first by `foldBytes_append`; `off`, `m` and `n` lie within a
16-bit length, so that no sum of them wraps. -/
theorem foldSplitsAtEvenLengths : Obligations.FoldSplitsAtEvenLengths := by
  refine ⟨?_, by decide, by decide⟩
  intro s s1 s2 buf off m n hw ho hm hr heven h1 h2
  have hlen := (lenOf s buf).isLt
  have hoff : (off + m).toNat = off.toNat + m.toNat := BitVec.toNat_add_of_lt (by omega)
  have hsum : (m + n).toNat = m.toNat + n.toNat := BitVec.toNat_add_of_lt (by omega)
  have hrange : RangeOk s buf off (m + n) := by rw [RangeOk, hsum]; omega
  have hrange1 : RangeOk s buf off m := by rw [RangeOk]; omega
  have hrange2 : RangeOk s buf (off + m) n := by rw [RangeOk, hoff]; omega
  obtain rfl := Host.Outcome.next.inj (h1.symm.trans (exec_fold hw ho hm hrange1))
  obtain rfl := Host.Outcome.next.inj (h2.symm.trans
    (exec_fold_of_frame (finish_withAcc_frame ..) hw ho hm hrange2))
  rw [exec_fold hw ho hm hrange, hsum, ← memRead_append, ← foldBytes_append _ (by simpa using heven), ← hoff]
  rfl

/-! ### TXSUM -/

/-- The checksum of a fold as a number (R99). -/
theorem toNat_txChecksum (f : BitVec 16) :
    (txChecksum f).toNat = if f = 0xFFFF#16 then 0xFFFF else 0xFFFF - f.toNat := by
  unfold txChecksum
  split
  · rfl
  · rw [BitVec.toNat_not]

/-- What TXSUM leaves alone, RES apart (R99). -/
theorem finish_txsumEffect_frame (e : Err) (a : Act) (buf : Side) (off len : BitVec 16) (s : State) :
    { finish e a (txsumEffect buf off len s) with
      acc := s.acc, res := s.res, inMem := s.inMem, outMem := s.outMem } = s :=
  congrArg (fun u : State => { u with res := s.res }) (txsumEffect_frame buf off len s)

/-- TXSUM writes the two bytes of its field and no other (R99). -/
theorem bytesKeptOutside_txsumEffect (buf : Side) (off len : BitVec 16) (s : State) :
    BytesKeptOutside buf (off.toNat + 2) 2 s (txsumEffect buf off len s) := by
  intro sp k hk
  have hout : ∀ d, d < 2 → ¬ (sp = buf ∧ k = off.toNat + 2 + d) := by
    rintro d hd ⟨hsp, rfl⟩
    have := hk hsp
    omega
  rw [readByte_txsumEffect, if_neg (hout 0 (by decide)), if_neg (hout 1 (by decide))]

/-- The field holds the checksum, high byte first (R42, R73, R99). -/
theorem be16_txsumEffect (buf : Side) (off len : BitVec 16) (s : State) :
    be16 (readByte (txsumEffect buf off len s) buf (off.toNat + 2))
      (readByte (txsumEffect buf off len s) buf (off.toNat + 3)) =
    txChecksum (txsumEffect buf off len s).acc := by
  simp [readByte_txsumEffect, txsumEffect_acc, be16_hi8_lo8]

/-- Settles O21: `exec_txsum`, whose field holds `txChecksum` of the fold. -/
theorem txsumWritesTheChecksumField : Obligations.TxsumWritesTheChecksumField := by
  intro buf off len s hw ho hm hr h4
  refine ⟨_, exec_txsum hw ho hm hr h4, txsumEffect_acc buf off len s, ?_, ?_, rfl, ?_⟩
  · rw [readByte_finish, readByte_finish, ← toNat_be16, be16_txsumEffect, toNat_txChecksum, finish_acc]
  · intro sp k hk
    rw [readByte_finish]
    exact bytesKeptOutside_txsumEffect buf off len s sp k hk
  · exact finish_txsumEffect_frame ..

/-- Settles O22: TXSUM keeps what FOLD's checks read, and `foldBytes_txsumEffect` is the fold. -/
theorem txsumThenFoldGivesAllOnes : Obligations.TxsumThenFoldGivesAllOnes := by
  intro buf off len s hw ho hm hr h4
  have hread : memRead { finish .none .none (txsumEffect buf off len s) with acc := s.acc } buf off.toNat
      len.toNat = memRead (txsumEffect buf off len s) buf off.toNat len.toNat :=
    memRead_congr fun k _ => (readByte_withAcc _ _ _).trans (readByte_finish ..)
  have hfold := foldBytes_txsumEffect buf off len s h4
  rw [← hread] at hfold
  exact ⟨_, _, exec_txsum hw ho hm hr h4,
    exec_fold_of_frame (finish_txsumEffect_frame .none .none buf off len s) hw ho hm hr, hfold,
    beq_iff_eq.mpr hfold⟩

/-! ### A finished datagram at its receiver -/

@[simp] theorem buildReply_acc (n : Nat) (s : State) : (buildReply n s).acc = s.acc := by
  simp [buildReply, copyRange]

theorem encodeReply_acc (s : State) : (encodeReply s).acc = s.acc := by
  rcases encodeReply_cases s with h | ⟨-, h⟩ | ⟨-, -, -, -, h⟩ <;> simp [h]

theorem routeInbound_acc (ty : BitVec 8) (s : State) : (routeInbound ty s).acc = s.acc := by
  rcases routeInbound_cases ty s with ⟨-, h⟩ | ⟨-, -, -, h⟩ | ⟨-, h⟩ | h
  · rw [h, encodeReply_acc]
  all_goals simp [h]

/-- RX leaves its fold in ACC, whatever the message's type (R160, R161). -/
theorem rxEffect_acc {s : State} (h4 : 4 ≤ s.inLen.toNat - s.inOff.toNat) :
    (rxEffect s).acc = inboundFold s := by
  rcases rxEffect_cases s with ⟨hshort, -⟩ | ⟨-, -, h⟩ | ⟨-, hfold, h⟩
  · omega
  · rw [h]; rfl
  · rw [h, routeInbound_acc, hfold]

/-- RX folds the message's `n` bytes into the seed for their length (R160). -/
theorem inboundFold_of_length {s : State} {n : BitVec 16} (hn : s.inLen.toNat = s.inOff.toNat + n.toNat) :
    inboundFold s = foldBytes (seedOf s.iPeer s.iLocal n Config.nhIcmpv6)
      (memRead s .inbound s.inOff.toNat n.toNat) := by
  have hlen : s.inLen.toNat - s.inOff.toNat = n.toNat := by omega
  simp only [inboundFold, hlen, BitVec.ofNat_toNat, BitVec.setWidth_eq]

/-- Settles O23: the receiver's seed is the sender's with the addresses mirrored, and its bytes are those TXSUM
left, which fold to 0xFFFF by `foldBytes_txsumEffect`. -/
theorem finishedDatagramVerifiesAtTheReceiver : Obligations.FinishedDatagramVerifiesAtTheReceiver := by
  intro s r n hw hb hm hlen h4 hwr hmr hn hpeer hlocal
  have hrange : RangeOk s .outbound 0#16 n := by simp [RangeOk, lenOf, hlen]
  refine ⟨_, _, exec_seed hw, exec_txsum hw (fun _ => hb) hm hrange h4, fun hbytes => ⟨_, exec_rx hwr hmr, ?_⟩⟩
  rw [rxEffect_acc (by omega), inboundFold_of_length hn, hpeer, hlocal]
  have hsent := foldBytes_txsumEffect .outbound 0#16 n
    (finish .none .none { s with acc := seedOf s.oLocal s.oPeer n Config.nhIcmpv6 }) h4
  rw [← hsent]
  congr 1
  refine List.map_congr_left fun k hk => ?_
  rw [hbytes k (List.mem_range.mp hk), readByte_finish]
  simp [localOf, peerOf]

end Sys2Proof.Machine
end

section
/-! ENCQ: the prepended echo request, the lack of headroom, and the faults (R120 to R124, R202). -/

namespace Sys2Proof.Machine

section

variable {s : State}

/-! ### The checks -/

theorem encqCheck_nomsg (hb : s.outBusy = false) : encqCheck s = some .nomsg := if_pos hb

theorem encqCheck_msgstate (hb : s.outBusy = true) (hm : ¬ MsgOk s .outbound) :
    encqCheck s = some .msgstate := by
  simp [encqCheck, hb, msgOK_eq_false.mpr hm]

/-- ENCQ takes the first fault its checks find (R120, R202). -/
theorem exec_encq_fault (hw : Working s) {c : Cause} (hc : encqCheck s = some c) :
    exec .encq s = .next (raiseFault c (encode .encq) s) := by
  simp only [exec, execEncq, hc]
  exact runCommand_fault hw

/-! ### The two effects -/

theorem encqEffect_noroom (h : s.params.outCap.toNat < s.outLen.toNat + 8) :
    encqEffect s = finish .noroom .none { s with seq := s.seq + 1#16 } := if_pos h

/-- The outbound message becomes the payload of an echo request with the sequence number SEQ, and SEQ steps
(R121 to R123). -/
def requestPrepended (s : State) : State :=
  { prependOut { s with seq := s.seq + 1#16 } (echoHeader Config.typeEchoRequest Config.ident s.seq) with
    outOff := 0x0000#16 }

theorem encqEffect_send (h : s.outLen.toNat + 8 ≤ s.params.outCap.toNat) :
    encqEffect s = finish .none .send (requestPrepended s) := if_neg (Nat.not_lt.mpr h)

/-- SEQ steps modulo 65536 (R122). -/
theorem toNat_seq_step (s : State) : (s.seq + 1#16).toNat = (s.seq.toNat + 1) % 65536 := BitVec.toNat_add ..

/-! ### The prepended request -/

/-- The bytes of the request: the header, the old message moved up, then as before (R121, R123). -/
theorem readByte_requestPrepended (s : State) (sp : Side) (k : Nat) :
    readByte (requestPrepended s) sp k =
      if sp = .outbound ∧ k < 8 + s.outLen.toNat then
        (if k < 8 then (echoHeader Config.typeEchoRequest Config.ident s.seq).getD k 0#8
         else readByte s .outbound (k - 8))
      else readByte s sp k := by
  have hcounted : ∀ sp' j, readByte { s with seq := s.seq + 1#16 } sp' j = readByte s sp' j :=
    bytesKept_of_eq rfl rfl rfl
  have hcursor : BytesKept (prependOut { s with seq := s.seq + 1#16 }
      (echoHeader Config.typeEchoRequest Config.ident s.seq)) (requestPrepended s) := bytesKept_of_eq rfl rfl rfl
  rw [hcursor, readByte_prependOut, hcounted, hcounted]
  rfl

theorem readByte_requestPrepended_header {k : Nat} (hk : k < 8) :
    readByte (requestPrepended s) .outbound k =
      (echoHeader Config.typeEchoRequest Config.ident s.seq).getD k 0#8 := by
  rw [readByte_requestPrepended, if_pos ⟨rfl, by omega⟩, if_pos hk]

/-- The request begins with the whole echo header (R121). -/
theorem memRead_requestPrepended_header (s : State) :
    memRead (requestPrepended s) .outbound 0 8 = echoHeader Config.typeEchoRequest Config.ident s.seq := by
  have hbytes : ∀ k ∈ List.range 8, readByte (requestPrepended s) .outbound (0 + k) =
      (echoHeader Config.typeEchoRequest Config.ident s.seq).getD (0 + k) 0#8 :=
    fun k hk => readByte_requestPrepended_header (by simpa using hk)
  exact List.map_congr_left hbytes

theorem readByte_requestPrepended_payload {i : Nat} (hi : i < s.outLen.toNat) :
    readByte (requestPrepended s) .outbound (i + 8) = readByte s .outbound i := by
  rw [readByte_requestPrepended, if_pos ⟨rfl, by omega⟩, if_neg (by omega), Nat.add_sub_cancel]

theorem bytesKeptOutside_requestPrepended (s : State) :
    BytesKeptOutside .outbound 0 (s.outLen.toNat + 8) s (requestPrepended s) := by
  intro sp k hk
  rw [readByte_requestPrepended, if_neg]
  rintro ⟨hsp, hlt⟩
  have := hk hsp
  omega

/-- OUT_LEN grows by 8 without wrapping, since the request fits in OUT_CAP (R123). -/
theorem requestPrepended_outLen (h : s.outLen.toNat + 8 ≤ s.params.outCap.toNat) :
    (requestPrepended s).outLen.toNat = s.outLen.toNat + 8 :=
  BitVec.toNat_add_of_lt (y := 8#16) (h.trans_lt s.params.outCap.isLt)

/-- What a prepend leaves alone (R53). -/
theorem prependOut_frame (s : State) (h : List (BitVec 8)) :
    { prependOut s h with outMem := s.outMem, outLen := s.outLen } = s := rfl

/-- What a successful ENCQ leaves alone (R123). -/
theorem finish_requestPrepended_frame (e : Err) (a : Act) (s : State) :
    { finish e a (requestPrepended s) with
      outMem := s.outMem, outLen := s.outLen, outOff := s.outOff, seq := s.seq, res := s.res } = s :=
  congrArg (fun u : State => { u with outOff := s.outOff, seq := s.seq, res := s.res })
    (prependOut_frame { s with seq := s.seq + 1#16 } (echoHeader Config.typeEchoRequest Config.ident s.seq))

end

/-- Settles O26: `encqEffect_send`, whose bytes `readByte_requestPrepended` gives; OUT_LEN + 8 does not wrap. -/
theorem encqPrependsTheRequestHeader : Obligations.EncqPrependsTheRequestHeader := by
  intro s hw hb hm hroom
  have hheader := memRead_requestPrepended_header s
  refine ⟨_, (exec_encq hw hb hm).trans (congrArg _ (encqEffect_send hroom)), ?_, ?_, ?_, fun i hi => ?_,
    fun sp k hk => ?_, requestPrepended_outLen hroom, rfl, toNat_seq_step s, rfl,
    finish_requestPrepended_frame .none .send s⟩
  · exact congrArg (List.take 4) hheader
  · exact congrArg (fun header => (header.drop 4).take 2) hheader
  · rw [readByte_finish, readByte_finish, readByte_requestPrepended_header (by decide),
      readByte_requestPrepended_header (by decide), ← toNat_be16]
    exact congrArg BitVec.toNat (be16_hi8_lo8 s.seq)
  · rw [readByte_finish, readByte_requestPrepended_payload hi]
  · rw [readByte_finish, bytesKeptOutside_requestPrepended s sp k hk]

/-- Settles O27: `encqEffect_noroom`. -/
theorem encqWithoutHeadroomOnlyStepsSeq : Obligations.EncqWithoutHeadroomOnlyStepsSeq := by
  intro s hw hb hm hfull
  exact ⟨_, (exec_encq hw hb hm).trans (congrArg _ (encqEffect_noroom hfull)), toNat_seq_step s, rfl, rfl,
    bytesKept_of_eq rfl rfl rfl⟩

/-- Settles O28: ENCQ's checks find F_NOMSG or F_MSGSTATE, and fault entry leaves SEQ by
`raiseFault_entered`. -/
theorem encqFaultsWithoutAGoodMessage : Obligations.EncqFaultsWithoutAGoodMessage := by
  intro s hw
  exact ⟨fun hb => ⟨_, exec_encq_fault hw (encqCheck_nomsg hb), raiseFault_entered ..⟩,
    fun hb hm => ⟨_, exec_encq_fault hw (encqCheck_msgstate hb hm), raiseFault_entered ..⟩⟩

end Sys2Proof.Machine
end

section
/-! ENCR: the encoded reply, and the four ways there is none (R141 to R150). -/

namespace Sys2Proof.Machine

section

variable {s : State}

/-! ### The five effects -/

theorem encodeReply_disabled (he : s.echoEn = false) : encodeReply s = finish .none .none s := if_pos he

theorem encodeReply_owned (he : s.echoEn = true) (hb : s.outBusy = true) :
    encodeReply s = finish .none .none { s with logNobuf := true } := by
  simp [encodeReply, he, hb]

theorem encodeReply_short (he : s.echoEn = true) (hb : s.outBusy = false)
    (h8 : s.inLen.toNat - s.inOff.toNat < 8) : encodeReply s = finish .none .none s := by
  simp [encodeReply, he, hb, Config.echoHdr, h8]

theorem encodeReply_tooLong (he : s.echoEn = true) (hb : s.outBusy = false)
    (h8 : 8 ≤ s.inLen.toNat - s.inOff.toNat)
    (hc : s.params.outCap.toNat < s.inLen.toNat - s.inOff.toNat) :
    encodeReply s = finish .none .none { s with logNobuf := true } := by
  simp [encodeReply, he, hb, Config.echoHdr, Nat.not_lt.mpr h8, hc]

theorem encodeReply_send (he : s.echoEn = true) (hb : s.outBusy = false)
    (h8 : 8 ≤ s.inLen.toNat - s.inOff.toNat)
    (hc : s.inLen.toNat - s.inOff.toNat ≤ s.params.outCap.toNat) :
    encodeReply s = finish .none .send (buildReply (s.inLen.toNat - s.inOff.toNat) s) := by
  simp [encodeReply, he, hb, Config.echoHdr, Nat.not_lt.mpr h8, Nat.not_lt.mpr hc]

/-! ### The encoded reply -/

/-- A reply that fits in OUT_CAP has its length in OUT_LEN unwrapped (R143). -/
theorem toNat_buildReply_outLen {n : Nat} (hc : n ≤ s.params.outCap.toNat) :
    (buildReply n s).outLen.toNat = n :=
  Nat.mod_eq_of_lt (hc.trans_lt s.params.outCap.isLt)

/-- Byte 0 of an address is its bits 127:120 (R6, R80). -/
theorem isMulticast_iff {a : BitVec 128} : isMulticast a = true ↔ a.extractLsb' 120 8 = 0xFF#8 := beq_iff_eq

section

variable {n : Nat} (h8 : 8 ≤ n) (s : State)

include h8

/-- The reply's type, code and zero checksum field (R144). -/
theorem memRead_buildReply_header :
    memRead (buildReply n s) .outbound 0 4 = [0x81#8, 0x00#8, 0x00#8, 0x00#8] := by
  have hbytes : ∀ k ∈ List.range 4, readByte (buildReply n s) .outbound (0 + k) =
      [0x81#8, 0x00#8, 0x00#8, 0x00#8].getD (0 + k) 0#8 := by
    intro k hk
    have hk : 0 + k < 4 := by simpa using hk
    rw [readByte_buildReply h8, if_pos ⟨rfl, by omega⟩, if_pos hk]
  exact List.map_congr_left hbytes

/-- Behind the first four bytes the reply is the request (R145). -/
theorem readByte_buildReply_payload {i : Nat} (hi : i < n - 4) :
    readByte (buildReply n s) .outbound (4 + i) = readByte s .inbound (s.inOff.toNat + 4 + i) := by
  rw [readByte_buildReply h8, if_pos ⟨rfl, by omega⟩, if_neg (by omega), Nat.add_assoc]

theorem bytesKeptOutside_buildReply : BytesKeptOutside .outbound 0 n s (buildReply n s) := by
  intro sp k hk
  rw [readByte_buildReply h8, if_neg]
  rintro ⟨hsp, hlt⟩
  have := hk hsp
  omega

end

/-- What an ENCR that replies leaves alone (R146, R150). -/
theorem finish_buildReply_frame (e : Err) (a : Act) (n : Nat) (s : State) :
    { finish e a (buildReply n s) with
      outMem := s.outMem, outLen := s.outLen, outOff := s.outOff, oPeer := s.oPeer, oIfid := s.oIfid,
      oLocal := s.oLocal, outBusy := s.outBusy, res := s.res } = s :=
  congrArg (fun u : State => { u with res := s.res }) (buildReply_frame n s)

/-! ### No reply -/

/-- ENCR where its effect is to log the lack of a buffer (R142, R149). -/
theorem exec_encr_log (hw : Working s) (hm : MsgOk s .inbound)
    (h : encodeReply s = finish .none .none { s with logNobuf := true }) :
    ∃ t, exec .encr s = .next t ∧ t.logNobuf = true ∧ t.res = 0x00#8 ∧
      { t with logNobuf := s.logNobuf, res := s.res } = s ∧ BytesKept s t :=
  ⟨_, (exec_encr hw hm).trans (congrArg _ h), rfl, rfl, rfl, bytesKept_of_eq rfl rfl rfl⟩

/-- ENCR where it has no effect (R141, R148). -/
theorem exec_encr_quiet (hw : Working s) (hm : MsgOk s .inbound) (h : encodeReply s = finish .none .none s) :
    ∃ t, exec .encr s = .next t ∧ t.res = 0x00#8 ∧ { t with res := s.res } = s ∧ BytesKept s t :=
  ⟨_, (exec_encr hw hm).trans (congrArg _ h), rfl, rfl, bytesKept_of_eq rfl rfl rfl⟩

end

/-- Settles O29: `encodeReply_send`, whose bytes `readByte_buildReply` gives; the length is at most OUT_CAP and
does not wrap. -/
theorem encrEncodesTheReply : Obligations.EncrEncodesTheReply := by
  intro s hw hm he hb h8 hc
  refine ⟨_, (exec_encr hw hm).trans (congrArg _ (encodeReply_send he hb h8 hc)),
    memRead_buildReply_header h8 s, fun i hi => ?_, fun sp k hk => ?_, toNat_buildReply_outLen hc,
    rfl, rfl, rfl, ?_, rfl, rfl, finish_buildReply_frame ..⟩
  · rw [readByte_finish, readByte_buildReply_payload h8 s hi]
  · rw [readByte_finish, bytesKeptOutside_buildReply h8 s sp k hk]
  · simp only [finish_oLocal, buildReply_oLocal, isMulticast_iff, unspecified]

/-- Settles O30: `encodeReply_disabled`. -/
theorem encrDisabledDoesNothing : Obligations.EncrDisabledDoesNothing :=
  fun _ hw hm he => exec_encr_quiet hw hm (encodeReply_disabled he)

/-- Settles O31: ENCR logs an owned OUT and a request beyond OUT_CAP, and drops a short request. -/
theorem encrWithoutAReplyLogsOrDrops : Obligations.EncrWithoutAReplyLogsOrDrops := by
  intro s hw hm he
  exact ⟨fun hb => exec_encr_log hw hm (encodeReply_owned he hb),
    fun hb h8 => exec_encr_quiet hw hm (encodeReply_short he hb h8),
    fun hb h8 hc => exec_encr_log hw hm (encodeReply_tooLong he hb h8 hc)⟩

end Sys2Proof.Machine
end

section
/-! RX: the sum it leaves in ACC, its two drops, and one route for each type byte (R157 to R167). -/

namespace Sys2Proof.Machine

section

variable {s : State}

/-! ### The three effects -/

theorem rxEffect_short (h : s.inLen.toNat - s.inOff.toNat < 4) : rxEffect s = finish .none .none s := if_pos h

theorem rxEffect_badChecksum (h4 : 4 ≤ s.inLen.toNat - s.inOff.toNat) (hfold : inboundFold s ≠ 0xFFFF#16) :
    rxEffect s = finish .none .none { s with acc := inboundFold s } := by
  rcases rxEffect_cases s with ⟨hshort, -⟩ | ⟨-, -, h⟩ | ⟨-, hgood, -⟩
  · omega
  · exact h
  · exact absurd hgood hfold

theorem rxEffect_verified (h4 : 4 ≤ s.inLen.toNat - s.inOff.toNat) (hfold : inboundFold s = 0xFFFF#16)
    {ty : BitVec 8} (hty : readByte s .inbound s.inOff.toNat = ty) :
    rxEffect s = routeInbound ty { s with acc := 0xFFFF#16 } := by
  subst hty
  rcases rxEffect_cases s with ⟨hshort, -⟩ | ⟨-, hbad, -⟩ | ⟨-, -, h⟩
  · omega
  · exact absurd hfold hbad
  · exact h

/-! ### The four routes -/

theorem routeInbound_echoRequest (s : State) : routeInbound 128#8 s = encodeReply s := rfl

theorem routeInbound_echoReply (s : State) :
    routeInbound 129#8 s = finish .none (if s.echoEn ∧ s.rhSet then .deliver else .none) s :=
  (apply_ite (finish .none · s) _ _ _).symm

theorem routeInbound_unreachable (s : State) :
    routeInbound 1#8 s = finish .none .unreach { s with inOff := s.inOff + 4#16 } := rfl

theorem routeInbound_other {ty : BitVec 8} (hty : ty ∉ [128#8, 129#8, 1#8]) :
    routeInbound ty s = finish .none .none s := by
  obtain ⟨hrequest, hreply, hunreachable⟩ : ty ≠ 128#8 ∧ ty ≠ 129#8 ∧ ty ≠ 1#8 := by simpa using hty
  exact (if_neg hrequest).trans ((if_neg hreply).trans (if_neg hunreachable))

/-- RX where its effect is on ACC and RES alone. -/
theorem exec_rx_of_finish (hw : Working s) (hm : MsgOk s .inbound) {e : Err} {a : Act} {x : BitVec 16}
    (h : rxEffect s = finish e a { s with acc := x }) :
    ∃ t, exec .rx s = .next t ∧ t.acc = x ∧ t.res = resByte e a ∧ { t with acc := s.acc, res := s.res } = s ∧
      BytesKept s t :=
  ⟨_, (exec_rx hw hm).trans (congrArg _ h), rfl, rfl, finish_withAcc_frame .., bytesKept_finish_withAcc _ _ _⟩

end

/-- Settles O33: `rxEffect_short`. -/
theorem rxDropsShortMessages : Obligations.RxDropsShortMessages :=
  fun _ hw hm hshort => ⟨_, (exec_rx hw hm).trans (congrArg _ (rxEffect_short hshort)), rfl, rfl,
    bytesKept_of_eq rfl rfl rfl⟩

/-- Settles O34: FOLD runs behind SEED on the same bytes, and the two commands' seeds agree by `seedOf_comm`. -/
theorem rxSumsAsSeedThenFold : Obligations.RxSumsAsSeedThenFold := by
  intro s n hw hm hn h4
  have hrange : RangeOk s .inbound s.inOff n := Nat.le_of_eq hn
  have howned : Owned s .inbound := nofun
  refine ⟨_, _, _, exec_rx hw hm, exec_seed hw,
    exec_fold_of_frame (finish_withAcc_frame ..) hw howned hm hrange, ?_⟩
  rw [rxEffect_acc (by omega), inboundFold_of_length hn.symm, seedOf_comm]
  rfl

/-- Settles O35: `rxEffect_badChecksum`. -/
theorem rxDropsBadChecksums : Obligations.RxDropsBadChecksums :=
  fun _ hw hm h4 hfold => exec_rx_of_finish hw hm (rxEffect_badChecksum h4 hfold)

/-- Settles O36: RX and ENCR both end in `encodeReply`, so that the reply is the one `encrEncodesTheReply`
describes. -/
theorem rxAnswersAVerifiedEchoRequest : Obligations.RxAnswersAVerifiedEchoRequest := by
  intro s hw hm h4 hfold hty
  have hencr : exec .rx s = exec .encr { s with acc := 0xFFFF#16 } := by
    rw [exec_rx hw hm, rxEffect_verified h4 hfold hty, routeInbound_echoRequest]
    exact (exec_encr (s := { s with acc := 0xFFFF#16 }) hw hm).symm
  refine ⟨hencr, fun he hb h8 hc => ?_⟩
  obtain ⟨t, ht, hheader, hpayload, -, hlen, -, -, -, -, hbusy, hres, hframe⟩ :=
    encrEncodesTheReply { s with acc := 0xFFFF#16 } hw hm he hb h8 hc
  have hacc : t.acc = 0xFFFF#16 := congrArg State.acc hframe
  have htype : readByte t .outbound 0 = 129#8 := Option.some.inj (congrArg List.head? hheader)
  refine ⟨t, hencr.trans ht, hres, hbusy, hacc, hlen, htype, fun i hi hin => ?_⟩
  obtain ⟨j, rfl⟩ := Nat.exists_eq_add_of_le hi
  rw [hpayload j (Nat.lt_sub_iff_add_lt'.mpr hin), readByte_withAcc, Nat.add_assoc]

/-- Settles O37: `routeInbound_echoReply`. -/
theorem rxDeliversAVerifiedEchoReply : Obligations.RxDeliversAVerifiedEchoReply := by
  intro s hw hm h4 hfold hty
  obtain ⟨t, ht, hacc, hres, hframe, hbytes⟩ :=
    exec_rx_of_finish hw hm ((rxEffect_verified h4 hfold hty).trans (routeInbound_echoReply _))
  refine ⟨t, ht, hacc, ?_, hframe, hbytes⟩
  rw [hres, apply_ite (resByte .none)]
  rfl

/-- Settles O38: `routeInbound_unreachable`; the cursor stays within IN_LEN, so that IN_OFF + 4 does not wrap. -/
theorem rxHandsOnAnUnreachable : Obligations.RxHandsOnAnUnreachable := by
  intro s hw hm h4 hfold hty
  have hlen := s.inLen.isLt
  have hoff : (s.inOff + 4#16).toNat = s.inOff.toNat + 4 :=
    BitVec.toNat_add_of_lt (y := 4#16) (by rw [BitVec.toNat_ofNat]; omega)
  have hwithin : (s.inOff + 4#16).toNat ≤ s.inLen.toNat := by omega
  exact ⟨_, (exec_rx hw hm).trans
      (congrArg _ ((rxEffect_verified h4 hfold hty).trans (routeInbound_unreachable _))),
    rfl, rfl, hoff, hwithin, rfl, bytesKept_of_eq rfl rfl rfl⟩

/-- Settles O39: `routeInbound_other`. -/
theorem rxIgnoresOtherTypes : Obligations.RxIgnoresOtherTypes :=
  fun _ hw hm h4 hfold hty =>
    exec_rx_of_finish hw hm ((rxEffect_verified h4 hfold rfl).trans (routeInbound_other hty))

end Sys2Proof.Machine
end

section
/-! RESET, the frozen block, and the ownership commands ALLOC and REL (R175, R176, R183, R184, R204). -/

namespace Sys2Proof.Machine

section

variable {s : State}

/-! ### RESET and the frozen block -/

/-- The reset values say nothing of the script. -/
theorem AtReset.withScript (h : AtReset s) (rest : List HostAction) : AtReset { s with script := rest } :=
  { h with bytes := fun sp i => (bytesKept_of_eq rfl rfl rfl sp i).trans (h.bytes sp i) }

/-- A frozen block keeps its registers and runs no command (R184, R204). -/
theorem hostWrite_frozen (hf : s.fault = true) (n : BitVec 8) (v : BitVec (portWidth n)) :
    hostWrite n v s = .next s := if_pos hf

/-- A frozen block keeps its buffers (R184, R204). -/
theorem hostWriteByte_frozen (hf : s.fault = true) (sp : Side) (i : BitVec 16) (v : BitVec 8) :
    hostWriteByte sp i v s = s := if_pos hf

/-! ### ALLOC and REL -/

theorem exec_alloc_owned (hw : Working s) (hb : s.outBusy = true) :
    exec .alloc s = .next (finish .nobufs .none s) :=
  (exec_alloc hw).trans (congrArg _ (if_pos hb))

theorem exec_alloc_free (hw : Working s) (hb : s.outBusy = false) :
    exec .alloc s = .next
      (finish .none .none { s with outBusy := true, outLen := 0x0000#16, outOff := 0x0000#16 }) :=
  (exec_alloc hw).trans (congrArg _ (if_neg (Bool.eq_false_iff.mp hb)))

theorem exec_rel_nomsg (hw : Working s) (hb : s.outBusy = false) :
    exec .rel s = .next (raiseFault .nomsg (encode .rel) s) := by
  simp only [exec, execRel, hb, Bool.false_eq_true, if_false]
  exact runCommand_fault hw

end

/-- Settles O2: RESET puts an initial state under the script. -/
theorem resetActionRestoresEveryPieceOfState : Obligations.ResetActionRestoresEveryPieceOfState := by
  intro s rest hs
  exact ⟨_, step_cons hs, (atReset_initial s.params (s.epoch + 1)).withScript rest, rfl, rfl⟩

/-- Settles O3: of the effects of a step, those a frozen block can have keep FAULT, RESET apart. -/
theorem onlyResetClearsFault : Obligations.OnlyResetClearsFault := by
  intro s t h hs ht
  cases step_effect h with
  | reset rest hscript => exact ⟨rest, hscript⟩
  | idle _ e | frozen _ _ e | read _ _ e =>
    subst e
    exact absurd (ht.symm.trans hs) Bool.false_ne_true
  | command _ _ _ _ hf | badWord _ _ _ _ hf | register _ _ _ hf | byte _ _ _ _ hf | deniedWrite _ _ _ hf
  | deniedRead _ _ _ hf => exact absurd (hf.symm.trans hs) Bool.false_ne_true

/-- Settles O44: `hostWrite_frozen` and `hostWriteByte_frozen`. -/
theorem frozenBlockIgnoresWrites : Obligations.FrozenBlockIgnoresWrites := by
  rintro s a rest hf hs (⟨n, v, rfl⟩ | ⟨sp, i, v, rfl⟩)
  · rw [step_cons hs]
    exact hostWrite_frozen (s := { s with script := rest }) hf n v
  · rw [step_cons hs]
    exact congrArg _ (hostWriteByte_frozen (s := { s with script := rest }) hf sp i v)

/-- Settles O41: `exec_alloc_free` and `exec_alloc_owned`. -/
theorem allocTakesTheOutboundBuffer : Obligations.AllocTakesTheOutboundBuffer := by
  intro s hw
  exact ⟨fun hb => ⟨_, exec_alloc_free hw hb, rfl, rfl, rfl, rfl, rfl, bytesKept_of_eq rfl rfl rfl⟩,
    fun hb => ⟨_, exec_alloc_owned hw hb, rfl, rfl, bytesKept_of_eq rfl rfl rfl⟩⟩

/-- Settles O42: `exec_rel` and `exec_rel_nomsg`; the fault records REL's word. -/
theorem relReleasesTheOutboundBuffer : Obligations.RelReleasesTheOutboundBuffer := by
  intro s hw
  exact ⟨fun hb => ⟨_, exec_rel hw hb, rfl, rfl, rfl, bytesKept_of_eq rfl rfl rfl⟩,
    fun hb => ⟨_, exec_rel_nomsg hw hb, raiseFault_entered ..⟩⟩

end Sys2Proof.Machine
end

section
/-! Reads that a port denies, and the buffer port: what it does below the capacity and beyond it (R178, R179, R184). -/

namespace Sys2Proof.Machine

/-! ### Denied reads -/

section

variable {s : State} {sp : Side} {i : BitVec 16}

theorem deniedRead_frozen (hf : s.fault = true) (c : Cause) (r : BitVec 64) :
    deniedRead c r s = { s with readout := some 0#128 } := if_pos hf

/-- A read denied by a working block is a fault, apart from the value returned (R178, R179, R203). -/
theorem deniedRead_entered (hw : Working s) (c : Cause) (r : BitVec 64) :
    FaultEntered (causeCode c) r { s with readout := (deniedRead c r s).readout } (deniedRead c r s) := by
  rw [deniedRead, if_neg (Bool.eq_false_iff.mp hw)]
  exact ⟨rfl, rfl, rfl, rfl, rfl⟩

/-! ### The buffer port -/

theorem hostWriteByte_below (hw : Working s) (hi : i.toNat < (capOf s sp).toNat) (v : BitVec 8) :
    hostWriteByte sp i v s = memWrite s sp i.toNat [v] :=
  (if_neg (Bool.eq_false_iff.mp hw)).trans (if_pos hi)

theorem hostWriteByte_beyond (hw : Working s) (hi : (capOf s sp).toNat ≤ i.toNat) (v : BitVec 8) :
    hostWriteByte sp i v s = raiseFault .bufacc (bufRecord sp i) s :=
  (if_neg (Bool.eq_false_iff.mp hw)).trans (if_neg (Nat.not_lt.mpr hi))

theorem hostReadByte_below (hi : i.toNat < (capOf s sp).toNat) :
    hostReadByte sp i s = { s with readout := some ((readByte s sp i.toNat).setWidth 128) } := if_pos hi

theorem hostReadByte_beyond (hi : (capOf s sp).toNat ≤ i.toNat) :
    hostReadByte sp i s = deniedRead .bufacc (bufRecord sp i) s := if_neg (Nat.not_lt.mpr hi)

/-- A write of one byte is read back there, and every other byte reads as before. -/
theorem readByte_memWrite_singleton (s : State) (sp sp' : Side) (a k : Nat) (v : BitVec 8) :
    readByte (memWrite s sp a [v]) sp' k = if sp' = sp ∧ k = a then v else readByte s sp' k := by
  have hone : a ≤ k ∧ k < a + [v].length ↔ k = a := by simp only [List.length_singleton]; omega
  rw [readByte_memWrite]
  simp only [hone]
  split
  case isTrue h => simp [h]
  case isFalse h => rfl

/-- A buffer write leaves everything but the two memories alone. -/
theorem memWrite_frame (s : State) (sp : Side) (a : Nat) (bs : List (BitVec 8)) :
    { memWrite s sp a bs with inMem := s.inMem, outMem := s.outMem } = s := by
  cases sp <;> rfl

/-- The record of a buffer access holds the space in bit 16 and the index below it (R20, R179). -/
theorem bufRecord_eq (sp : Side) (i : BitVec 16) :
    bufRecord sp i = BitVec.ofNat 64 ((sideBit sp).toNat * 65536 + i.toNat) := by
  rw [bufRecord, ← BitVec.ofNat_toNat, toNat_append_eq]
  rfl

end

section

variable (s : State) (rest : List HostAction)

/-- A step takes the action off the script it was put on. -/
theorem step_script (a : HostAction) :
    step { s with script := a :: rest } = perform a { s with script := rest } := rfl

theorem Working.withScript {s : State} (h : Working s) (rest : List HostAction) :
    Working { s with script := rest } := h

@[simp] theorem capOf_script (sp : Side) : capOf { s with script := rest } sp = capOf s sp := by cases sp <;> rfl

@[simp] theorem readByte_script (sp : Side) (k : Nat) :
    readByte { s with script := rest } sp k = readByte s sp k := bytesKept_of_eq rfl rfl rfl sp k

end

/-- Settles O50: `hostWriteByte_below` and `hostReadByte_below`. -/
theorem bufferPortReadsAndWritesOneByte : Obligations.BufferPortReadsAndWritesOneByte := by
  intro s sp i rest hi
  have hcap : i.toNat < (capOf { s with script := rest } sp).toNat := by rwa [capOf_script]
  refine ⟨fun v hw => ⟨_, congrArg _ (hostWriteByte_below (hw.withScript rest) hcap v), ?_, fun sp' k hk => ?_, ?_⟩,
    ?_⟩
  · rw [readByte_memWrite_singleton, if_pos ⟨rfl, rfl⟩]
  · rw [readByte_memWrite_singleton, if_neg, readByte_script]
    rintro ⟨hsp, rfl⟩
    have := hk hsp
    omega
  · exact memWrite_frame { s with script := rest } sp i.toNat [v]
  · rw [step_script, perform, hostReadByte_below hcap, readByte_script]

/-- Beyond the capacity both actions of the port are denied, with the record of the access (R179, R184). -/
theorem bufferPort_beyond {s : State} {sp : Side} {i : BitVec 16} (rest : List HostAction)
    (hi : (capOf s sp).toNat ≤ i.toNat) :
    (∀ v : BitVec 8, Working s → ∃ t, step { s with script := .wrb sp i v :: rest } = .next t ∧
      FaultEntered 0x07#8 (bufRecord sp i) { s with script := rest } t) ∧
    (Working s → ∃ t, step { s with script := .rdb sp i :: rest } = .next t ∧
      FaultEntered 0x07#8 (bufRecord sp i) { s with script := rest, readout := t.readout } t) ∧
    (s.fault = true → step { s with script := .rdb sp i :: rest } =
      .next { s with script := rest, readout := some 0#128 }) := by
  have hcap : (capOf { s with script := rest } sp).toNat ≤ i.toNat := by rwa [capOf_script]
  have hread := hostReadByte_beyond hcap
  refine ⟨fun v hw => ⟨_, congrArg _ (hostWriteByte_beyond (hw.withScript rest) hcap v), raiseFault_entered ..⟩,
    fun hw => ⟨_, congrArg _ hread, ?_⟩, fun hf => congrArg _ (hread.trans ?_)⟩
  · exact deniedRead_entered (hw.withScript rest) .bufacc (bufRecord sp i)
  · exact deniedRead_frozen (s := { s with script := rest }) hf .bufacc (bufRecord sp i)

/-- Settles O51: `bufferPort_beyond`, with the record as a number. -/
theorem bufferPortBeyondTheCapacityFaults : Obligations.BufferPortBeyondTheCapacityFaults := by
  intro s sp i rest hi
  have h := bufRecord_eq sp i ▸ bufferPort_beyond rest hi
  cases sp <;> exact h

end Sys2Proof.Machine
end

section
/-! The register port: what a read or a write of each register number does (R11, R16, R177, R178). -/

namespace Sys2Proof.Machine

theorem mem_allRegs (r : Reg) : r ∈ allRegs := by cases r <;> decide

/-! ### Reads -/

section

variable {s : State} {n : BitVec 8} {r : Reg}

/-- CMD alone has no read (R13). -/
theorem readReg_eq_none_iff : readReg s r = none ↔ r = .cmd := by
  cases r <;> simp only [readReg, reduceCtorEq]

/-- STATUS by its bits (R16). -/
theorem toNat_statusByte (s : State) : (statusByte s).toNat =
    (if s.acc = 0xFFFF#16 then 1 else 0) + (if s.outBusy then 2 else 0) + (if s.logNobuf then 4 else 0) +
      (if s.fault then 8 else 0) := by
  have hbits : ∀ all1 busy log fault : Bool,
      (0#4 ++ BitVec.ofBool fault ++ BitVec.ofBool log ++ BitVec.ofBool busy ++ BitVec.ofBool all1).toNat =
        (if all1 then 1 else 0) + (if busy then 2 else 0) + (if log then 4 else 0) + (if fault then 8 else 0) := by
    decide
  rw [statusByte, hbits]
  simp only [all1, beq_iff_eq]

/-- The registers the host may read are all but CMD, the first of the map, and each reads as its value (R11). -/
theorem readTable_eq (s : State) :
    readTable s = allRegs.tail.map fun r => (r.num, ((readReg s r).getD 0#128).toNat) := by
  simp [readTable, allRegs, Reg.num, readReg, toNat_statusByte, Config.ident, BitVec.toNat_setWidth_of_le,
    -BitVec.toNat_setWidth]

/-- A number of the read table reads as the table says. -/
theorem readable_of_mem_readTable {v : Nat} (h : (n, v) ∈ readTable s) :
    readable n s = some (BitVec.ofNat 128 v) := by
  rw [readTable_eq] at h
  obtain ⟨r, hr, he⟩ := List.mem_map.mp h
  cases he
  have hcmd : r ≠ .cmd := by rintro rfl; revert hr; decide
  obtain ⟨x, hx⟩ : ∃ x, readReg s r = some x := Option.ne_none_iff_exists'.mp (mt readReg_eq_none_iff.mp hcmd)
  simp only [readable, regOfNum_num, hx, Option.getD_some, BitVec.ofNat_toNat, BitVec.setWidth_eq]

/-- CMD and the unassigned numbers have no read (R11, R13). -/
theorem readable_eq_none (h : n ∉ allRegs.tail.map Reg.num) : readable n s = none := by
  cases hr : regOfNum n with
  | none => simp only [readable, hr]
  | some r =>
    obtain rfl := regOfNum_some hr
    have hcmd : r = .cmd :=
      (List.mem_cons.mp (mem_allRegs r)).resolve_right fun ht => h (List.mem_map_of_mem ht)
    simp only [readable, hr, readReg_eq_none_iff.mpr hcmd]

theorem hostRead_readable {v : BitVec 128} (h : readable n s = some v) :
    hostRead n s = { s with readout := some v } := by
  simp only [hostRead, h]

theorem hostRead_unreadable (h : readable n s = none) :
    hostRead n s = deniedRead .regacc (regRecord n) s := by
  simp only [hostRead, h]

end

/-- Settles O48: `readable_of_mem_readTable`; the table does not speak of the script. -/
theorem hostReadReturnsTheRegister : Obligations.HostReadReturnsTheRegister := by
  intro s rest n v h
  have hv : readable n { s with script := rest } = some (BitVec.ofNat 128 v) := readable_of_mem_readTable h
  exact congrArg _ (hostRead_readable hv)

/-- Settles O49: `readable_eq_none`, so that the read is denied. -/
theorem hostReadOfOtherNumbersFaults : Obligations.HostReadOfOtherNumbersFaults := by
  intro s n rest hn
  have hread := hostRead_unreadable (s := { s with script := rest }) (readable_eq_none hn)
  exact ⟨fun hw => ⟨_, congrArg _ hread, deniedRead_entered (hw.withScript rest) .regacc (regRecord n)⟩,
    fun hf => congrArg _ (hread.trans (deniedRead_frozen (s := { s with script := rest }) hf _ _))⟩

/-! ### Writes -/

/-- The registers the host may write as storage (R11, R177). -/
def storedRegs : List Reg :=
  [.acc, .echoEn, .rhSet, .logNobuf, .iPeer, .iLocal, .iIfid, .inLen, .inOff, .oPeer, .oLocal, .oIfid, .outLen,
    .outOff]

/-- A host write stores to one of `storedRegs` or to none. -/
theorem mem_storedRegs {s t : State} {v : BitVec 128} {r : Reg} (h : writeReg s v r = some t) :
    r ∈ storedRegs := by
  cases r <;> simp only [writeReg, reduceCtorEq] at h <;> decide

section

variable {s : State} {n : BitVec 8} {v : BitVec (portWidth n)}

/-- A write of a number other than CMD's stores its value, or faults where nothing stores it (R177). -/
theorem hostWrite_eq (hw : Working s) (hn : n ≠ 0x00#8) : hostWrite n v s = .next
    (((regOfNum n).bind (writeReg s (v.setWidth 128))).getD (raiseFault .regacc (regRecord n) s)) := by
  rw [hostWrite, if_neg (Bool.eq_false_iff.mp hw)]
  split
  case h_1 hr => rw [hr]; rfl
  case h_2 hr => exact absurd (regOfNum_some hr) hn
  case h_3 hr =>
    rw [hr, Option.bind_some]
    split
    case h_1 ht => rw [ht, Option.getD_some]
    case h_2 ht => rw [ht, Option.getD_none]

/-- A step that puts the value `y` into a register, where the port's value kept at the register's width is `y`. -/
theorem step_wr_stores {α : Type} {x y : α} {r : Reg} {rest : List HostAction} (hw : Working s)
    (hr : regOfNum n = some r) (put : α → State)
    (ht : writeReg { s with script := rest } (v.setWidth 128) r = some (put x)) (hxy : x = y) :
    step { s with script := .wr n v :: rest } = .next (put y) := by
  have hcmd : n ≠ 0x00#8 := by
    rintro rfl
    cases (regOfNum_num .cmd).symm.trans hr
    cases ht
  rw [step_script, perform, hostWrite_eq (hw.withScript rest) hcmd, hr, Option.bind_some, ht, Option.getD_some,
    hxy]

end

/-- Settles O47: a register that is neither CMD nor in `storedRegs` stores nothing, and an unassigned number has no
register. -/
theorem hostWriteOfOtherRegistersFaults : Obligations.HostWriteOfOtherRegistersFaults := by
  intro s n v rest hw hn
  have hlist : n ∉ (Reg.cmd :: storedRegs).map Reg.num := hn
  obtain ⟨hcmd, hstored⟩ := not_or.mp (mt List.mem_cons.mpr hlist)
  have hnone : (regOfNum n).bind (writeReg { s with script := rest } (v.setWidth 128)) = none := by
    by_contra h
    obtain ⟨t, ht⟩ := Option.ne_none_iff_exists'.mp h
    obtain ⟨r, hr, ht⟩ := Option.bind_eq_some_iff.mp ht
    exact hstored (regOfNum_some hr ▸ List.mem_map_of_mem (mem_storedRegs ht))
  refine ⟨_, ?_, raiseFault_entered .regacc (regRecord n) { s with script := rest }⟩
  rw [step_script, perform, hostWrite_eq (hw.withScript rest) hcmd, hnone, Option.getD_none]

/-- Settles O46: `step_wr_stores` for each register of `storedRegs`; a value comes back from the port's width as it
was. -/
theorem hostWriteStoresTheValue : Obligations.HostWriteStoresTheValue := by
  intro s rest hw
  have bit : ∀ b : Bool, ((BitVec.ofBool b).setWidth 128).getLsbD 0 = b := by decide
  have half : ∀ v : BitVec 16, (v.setWidth 128).setWidth 16 = v := setWidth_roundtrip (by decide)
  have word : ∀ v : BitVec 32, (v.setWidth 128).setWidth 32 = v := setWidth_roundtrip (by decide)
  have addr : ∀ v : BitVec 128, v.setWidth 128 = v := BitVec.setWidth_eq
  exact ⟨fun v => step_wr_stores hw (regOfNum_num .acc) (fun x => { s with script := rest, acc := x }) rfl (half v),
    fun v => step_wr_stores hw (regOfNum_num .echoEn) (fun x => { s with script := rest, echoEn := x }) rfl (bit v),
    fun v => step_wr_stores hw (regOfNum_num .rhSet) (fun x => { s with script := rest, rhSet := x }) rfl (bit v),
    fun v => step_wr_stores hw (regOfNum_num .logNobuf) (fun x => { s with script := rest, logNobuf := x }) rfl (bit v),
    fun v => step_wr_stores hw (regOfNum_num .iPeer) (fun x => { s with script := rest, iPeer := x }) rfl (addr v),
    fun v => step_wr_stores hw (regOfNum_num .iLocal) (fun x => { s with script := rest, iLocal := x }) rfl (addr v),
    fun v => step_wr_stores hw (regOfNum_num .iIfid) (fun x => { s with script := rest, iIfid := x }) rfl (word v),
    fun v => step_wr_stores hw (regOfNum_num .inLen) (fun x => { s with script := rest, inLen := x }) rfl (half v),
    fun v => step_wr_stores hw (regOfNum_num .inOff) (fun x => { s with script := rest, inOff := x }) rfl (half v),
    fun v => step_wr_stores hw (regOfNum_num .oPeer) (fun x => { s with script := rest, oPeer := x }) rfl (addr v),
    fun v => step_wr_stores hw (regOfNum_num .oLocal) (fun x => { s with script := rest, oLocal := x }) rfl (addr v),
    fun v => step_wr_stores hw (regOfNum_num .oIfid) (fun x => { s with script := rest, oIfid := x }) rfl (word v),
    fun v => step_wr_stores hw (regOfNum_num .outLen) (fun x => { s with script := rest, outLen := x }) rfl (half v),
    fun v => step_wr_stores hw (regOfNum_num .outOff) (fun x => { s with script := rest, outOff := x }) rfl (half v)⟩

end Sys2Proof.Machine
end

section
/-! Faults: the checks of FOLD, TXSUM, ENCR and RX in their order, and fault entry over all commands (R201 to
R203). -/

namespace Sys2Proof.Machine

section

variable {s t : State} {i : Instr} {c : Cause}

/-- A command of a working block whose checks find a cause enters that fault, with its own word (R203). -/
theorem runCommand_entersFault {chk : Option Cause} {e : State} (hw : Working s) (hc : chk = some c) :
    ∃ t, runCommand i chk e s = .next t ∧ FaultEntered (causeCode c) (encode i) s t :=
  ⟨_, hc ▸ runCommand_fault hw, raiseFault_entered c (encode i) s⟩

theorem txsumEffect_fault (buf : Side) (off len : BitVec 16) : (txsumEffect buf off len s).fault = s.fault := by
  cases buf <;> rfl

/-- A command freezes a working block only by the fault its checks found; every other effect keeps FAULT. -/
theorem exec_faulted (hw : Working s) (h : exec i s = .next t) (ht : t.fault = true) :
    ∃ c ∈ [Cause.nomsg, .msgstate, .range], t = raiseFault c (encode i) s := by
  have kept (hk : t.fault = s.fault) : False := Bool.false_ne_true (hw.symm.trans (hk.symm.trans ht))
  cases exec_effect h with
  | fault _ c hc e => exact ⟨c, hc, e⟩
  | txsum _ buf off len _ _ _ _ _ e => subst e; exact (kept (txsumEffect_fault buf off len)).elim
  | _ => subst t; exact (kept rfl).elim

end

/-- Settles O24: the first check of `rangeCheck` that fails is the fault entered. -/
theorem rangeCommandsFaultInOrder : Obligations.RangeCommandsFaultInOrder := by
  intro buf off len s hw
  refine ⟨fun ho => ⟨?_, ?_⟩, fun ho hm => ⟨?_, ?_⟩, fun ho hm hr => ?_, fun ho hm hr => ?_⟩
  · exact runCommand_entersFault hw (rangeCheck_nomsg ho)
  · exact runCommand_entersFault hw (rangeCheck_nomsg ho)
  · exact runCommand_entersFault hw (rangeCheck_msgstate ho hm)
  · exact runCommand_entersFault hw (rangeCheck_msgstate ho hm)
  · exact runCommand_entersFault hw (rangeCheck_range ho hm (.inl hr))
  · exact runCommand_entersFault hw (rangeCheck_range ho hm hr)

/-- Settles O43: `exec_faulted`, and the cause is one of the three that commands check for. -/
theorem commandFaultsArePrecise : Obligations.CommandFaultsArePrecise := by
  intro i s t hw h ht
  obtain ⟨c, hc, rfl⟩ := exec_faulted hw h ht
  exact ⟨raiseFault_entered c (encode i) s, List.mem_map_of_mem (f := causeCode) hc⟩

/-- Settles O32: `inboundCheck` stands before either command's effect, whatever ECHO_EN is. -/
theorem malformedInboundMessageFaults : Obligations.MalformedInboundMessageFaults := by
  intro s hw hm
  exact ⟨runCommand_entersFault hw (inboundCheck_msgstate hm), runCommand_entersFault hw (inboundCheck_msgstate hm)⟩

end Sys2Proof.Machine
end

section
/-! The idle step, and the totality of the step: no command, word or host action stops the machine, for a fault is a
state the block is in (R203, R210, R230, R242). -/

namespace Sys2Proof.Machine

/-- With no action on the script the state stands (R210, R230). -/
theorem step_nil {s : State} (h : s.script = []) : step s = .next s := by
  simp only [step, h]

section

variable (s : State)

/-- Every command is a `runCommand`, which answers a next state whether the block is frozen, the checks fail or the
command has its effect. -/
theorem exec_answers (i : Instr) : ∃ t, exec i s = .next t := by
  cases i with
  | seed | fold | txsum | encq | encr | rx | alloc | rel => exact ⟨_, rfl⟩

/-- A word that is no command is a fault, which is a next state (R67). -/
theorem runWord_answers (w : BitVec 64) : ∃ t, runWord w s = .next t := by
  unfold runWord
  split
  case h_1 i _ => exact exec_answers s i
  case h_2 => exact ⟨_, rfl⟩
  case h_3 => exact ⟨_, rfl⟩

/-- A frozen block ignores the write; a working one runs CMD's word, and stores or faults at any other number. -/
theorem hostWrite_answers (n : BitVec 8) (v : BitVec (portWidth n)) : ∃ t, hostWrite n v s = .next t := by
  cases hf : s.fault with
  | true => exact ⟨s, hostWrite_frozen hf n v⟩
  | false =>
    by_cases hn : n = 0x00#8
    · subst hn
      exact hostWrite_cmd (w := v) hf ▸ runWord_answers s v
    · exact ⟨_, hostWrite_eq hf hn⟩

theorem perform_answers (a : HostAction) : ∃ t, perform a s = .next t := by
  cases a with
  | wr n v => exact hostWrite_answers s n v
  | rd | wrb | rdb | reset => exact ⟨_, rfl⟩

end

/-- Settles O4: the idle step. -/
theorem idleBlockHoldsItsState : Obligations.IdleBlockHoldsItsState := fun _ => step_nil

/-- Settles O6: the step is idle, or performs the script's first action, which answers a next state. -/
theorem everyStepAnswersANextState : Obligations.EveryStepAnswersANextState := by
  intro s
  cases hs : s.script with
  | nil => exact ⟨s, step_nil hs⟩
  | cons a rest => exact step_cons hs ▸ perform_answers { s with script := rest } a

end Sys2Proof.Machine
end
